-- ==== Sys2Proof/Word.lean ====
section
/-! DEFINITION. The word types of the machine (00_scope.md R6, R7, R8): a memory cell, a general register, an opcode
and an operand are 8 bits; the program counter and the stack pointer are 9 bits. Every value is unsigned. -/

namespace Sys2Proof

/-- One cell of memory, one general register, one opcode or operand (R6). -/
abbrev Byte := BitVec 8

/-- The program counter and the stack pointer: 9 bits, so that 256 can be held and nothing wraps (R7, D4, D5). -/
abbrev Ptr := BitVec 9

end Sys2Proof
end

