-- ==== Sys2Proof/Config.lean ====
section
/-! DEFINITION. The one table of the spec's literals (00_scope.md R6; 93_implementation_defined.md I17 asks for one
table, so that a corrected literal is a one-line change), and the two parameters the spec leaves OPEN (R7).
UNVERIFIED (unsafe, log 13): the literals are taken as the spec prints them; its own note N3 says they are unaudited. -/

namespace Sys2Proof.Config

/-- Memory size in cells: addresses 0 to 255 (R6, R20). -/
abbrev memSize : Nat := 256

/-- Number of general registers: indices 0 to 7 (R6, R21). -/
abbrev regCount : Nat := 8

/-- What a memory cell holds at construction, hence what an unlisted address reads as (R20, R200). -/
def memFill : Byte := 0

/-- What every general register holds at construction (R21, R200). -/
def regReset : Byte := 0

/-- The flag register at construction (R28, R200; the spec's own decision D6). -/
def flReset : Byte := 0

/-- The program counter at construction: the entry point (R47, R200). -/
def pcReset : Ptr := 0

/-- The stack pointer at construction (R26, R200). -/
def spReset : Ptr := 244

/-- The six opcode bytes (30_encoding.md R64). -/
def opHalt : Byte := 0b00000001
def opLoadImmediate : Byte := 0b10000010
def opPrintRegister : Byte := 0b01000111
def opMultiply : Byte := 0b10100010
def opPop : Byte := 0b01000110
def opPush : Byte := 0b01000101

/-- OPEN parameter: one less than the nonzero exit status of a Faulted run (R7, R193, D20). No body: nothing can be
proved of its value (safe, log 8). -/
opaque exitCodeFaultPred : Nat

/-- The OPEN parameter `exit_code_fault`: any nonzero value (R7, R193, D20). -/
def exitCodeFault : Nat := exitCodeFaultPred + 1

/-- The OPEN parameter `loader_policy` (R7, R190, D16): what the host makes of a program text whose treatment the spec
does not state, either a 256-byte image or (`none`) a host error. No body (safe, log 9). -/
opaque loaderPolicy : List Char → Option (Vector Byte memSize)

end Sys2Proof.Config
end

