-- ==== Sys2Proof/Syntax.lean ====
section
/-! DEFINITION. The instructions as syntax (30_encoding.md R60 to R66, 40_fetch_decode_dispatch.md R80): one constructor
per row of the opcode map R64. A register operand is the WHOLE operand byte: 8 to 255 can be encoded, and executing it
raises OutOfRange (R24, R66), so it is part of the syntax. -/

namespace Sys2Proof

/-- The six instructions (R64). -/
inductive Instr where
  /-- HALT, format F0 (R110). -/
  | halt
  /-- LOAD_IMMEDIATE reg, imm, format F2RI (R130). -/
  | loadImmediate (reg imm : Byte)
  /-- PRINT_REGISTER reg, format F1R (R111). -/
  | printRegister (reg : Byte)
  /-- MULTIPLY regA, regB, format F2RR (R132). -/
  | multiply (regA regB : Byte)
  /-- POP reg, format F1R (R150). -/
  | pop (reg : Byte)
  /-- PUSH reg, format F1R (R151). -/
  | push (reg : Byte)
  deriving DecidableEq, Repr

/-- The enumeration `kind` of R80: which instruction an opcode selects. -/
inductive Kind where
  | halt | loadImmediate | printRegister | multiply | pop | push
  deriving DecidableEq, Repr

/-- The enumeration `alu_op` of R80 and D21: one value. -/
inductive AluOp where
  | mul
  deriving DecidableEq, Repr

/-- The four formats of R61; the names are the spec's own. -/
inductive Format where
  | f0 | f1r | f2ri | f2rr
  deriving DecidableEq, Repr

end Sys2Proof
end

