-- ==== Sys2Proof/WellFormed.lean ====
section
/-! DEFINITION. Which instructions have only legal operands (30_encoding.md R62): a register index is legal below 8, an
immediate always. An ill-formed instruction still has an encoding and still decodes (R66); executing it raises
OutOfRange RegisterIndex (10_state.md R24). -/

namespace Sys2Proof

/-- A legal register index: the whole byte is compared with 8 (R24, D7). -/
def legalReg (idx : Byte) : Bool := idx.toNat < Config.regCount

/-- Every register operand of the instruction is legal. -/
def Instr.wellFormed : Instr → Bool
  | .halt => true
  | .loadImmediate reg _ => legalReg reg
  | .printRegister reg => legalReg reg
  | .multiply regA regB => legalReg regA && legalReg regB
  | .pop reg => legalReg reg
  | .push reg => legalReg reg

end Sys2Proof
end

