-- ==== Sys2Proof/Decode.lean ====
section
/-! DEFINITION. The sub-blocks `instruction_dispatch_table` and `instruction_decoder` (40_fetch_decode_dispatch.md R84,
R85), the decoder from bytes to `Instr` they make up (total, rejecting by name), the encoder (30_encoding.md R61, R64),
and the host's reading of an opcode-table word. -/

namespace Sys2Proof

/-- One row of the dispatch table (R64, R84). -/
structure TableRow where
  opcode : Byte
  kind : Kind
  format : Format
  operandCount : Nat
  deriving DecidableEq, Repr

/-- `instruction_dispatch_table` (R84): exactly six entries, the opcode map of R64. -/
def dispatchTable : List TableRow :=
  [ ⟨Config.opHalt, .halt, .f0, 0⟩,
    ⟨Config.opLoadImmediate, .loadImmediate, .f2ri, 2⟩,
    ⟨Config.opPrintRegister, .printRegister, .f1r, 1⟩,
    ⟨Config.opMultiply, .multiply, .f2rr, 2⟩,
    ⟨Config.opPop, .pop, .f1r, 1⟩,
    ⟨Config.opPush, .push, .f1r, 1⟩ ]

/-- The table's lookup on the whole opcode byte: a miss (`hit = 0`) is `none` (R65, R84). -/
def dispatchLookup (op : Byte) : Option TableRow :=
  dispatchTable.find? (fun row => row.opcode == op)

/-- The outputs of `instruction_decoder` for a valid opcode (R80, R85). `aluOp` is `some` exactly where R85's `uses_alu`
makes it meaningful. -/
structure DecoderOut where
  kind : Kind
  operandCount : Nat
  aIsReg : Bool
  bIsReg : Bool
  usesAlu : Bool
  aluOp : Option AluOp
  deriving DecidableEq, Repr

/-- `a_is_reg` of R85. -/
def Kind.aIsReg : Kind → Bool
  | .halt => false
  | .loadImmediate | .printRegister | .multiply | .pop | .push => true

/-- `b_is_reg` of R85: LOAD_IMMEDIATE's operand B is an immediate. -/
def Kind.bIsReg : Kind → Bool
  | .multiply => true
  | .halt | .loadImmediate | .printRegister | .pop | .push => false

/-- `uses_alu` of R85: only MULTIPLY is routed through the alu (R94). -/
def Kind.usesAlu : Kind → Bool
  | .multiply => true
  | .halt | .loadImmediate | .printRegister | .pop | .push => false

/-- `instruction_decoder` (R85): `none` is `valid = 0`. -/
def instructionDecoder (op : Byte) : Option DecoderOut :=
  (dispatchLookup op).map fun row =>
    { kind := row.kind, operandCount := row.operandCount, aIsReg := row.kind.aIsReg, bIsReg := row.kind.bIsReg,
      usesAlu := row.kind.usesAlu, aluOp := if row.kind.usesAlu then some .mul else none }

/-- The three bytes `fetch_unit` reads; `none` is a valid bit of 0 (R81). DESIGN CHOICE (safe, log 6): the don't-care
filler of an invalid read is no value at all. -/
structure Fetched where
  op : Option Byte
  a : Option Byte
  b : Option Byte
  deriving DecidableEq, Repr

/-- Why fetched bytes make no instruction, in the order R176 checks them. -/
inductive DecodeError where
  /-- The opcode byte itself is out of range (R82). -/
  | opcodeMissing
  /-- The opcode byte is in no row of the dispatch table (R65, R171). -/
  | unknownOpcode (op : Byte)
  /-- Operand A is declared and out of range (R83). -/
  | operandAMissing
  /-- Operand B is declared and out of range (R83). -/
  | operandBMissing
  deriving DecidableEq, Repr

/-- The instruction of a kind with operand bytes `a` and `b`, each used only where the kind declares it (R83, R90). -/
def Kind.build (k : Kind) (a b : Byte) : Instr :=
  match k with
  | .halt => .halt
  | .loadImmediate => .loadImmediate a b
  | .printRegister => .printRegister a
  | .multiply => .multiply a b
  | .pop => .pop a
  | .push => .push a

/-- The first four checks of R176 and the operands of R90, on the fetched bytes. An undeclared operand's valid bit is
ignored (R83). -/
def decodeFetched (f : Fetched) : Except DecodeError Instr :=
  match f.op with
  | none => .error .opcodeMissing
  | some op =>
    match instructionDecoder op with
    | none => .error (.unknownOpcode op)
    | some d =>
      if d.operandCount ≥ 1 ∧ f.a = none then .error .operandAMissing
      else if d.operandCount = 2 ∧ f.b = none then .error .operandBMissing
      else .ok (d.kind.build (f.a.getD 0) (f.b.getD 0))

/-- The instruction's kind. -/
def Instr.kind : Instr → Kind
  | .halt => .halt
  | .loadImmediate _ _ => .loadImmediate
  | .printRegister _ => .printRegister
  | .multiply _ _ => .multiply
  | .pop _ => .pop
  | .push _ => .push

/-- The encoder (R61, R64): the opcode byte, then each operand byte in order. -/
def encode : Instr → List Byte
  | .halt => [Config.opHalt]
  | .loadImmediate reg imm => [Config.opLoadImmediate, reg, imm]
  | .printRegister reg => [Config.opPrintRegister, reg]
  | .multiply regA regB => [Config.opMultiply, regA, regB]
  | .pop reg => [Config.opPop, reg]
  | .push reg => [Config.opPush, reg]

/-- The instruction's length in bytes: its operand count plus one (R60, R63). -/
def Instr.length : Instr → Nat
  | .halt => 1
  | .loadImmediate _ _ => 3
  | .printRegister _ => 2
  | .multiply _ _ => 3
  | .pop _ => 2
  | .push _ => 2

/-- The decoder on a list of bytes, the first at the lowest address: the instruction and the bytes after it. -/
def decode (bytes : List Byte) : Except DecodeError (Instr × List Byte) :=
  match decodeFetched ⟨bytes[0]?, bytes[1]?, bytes[2]?⟩ with
  | .error e => .error e
  | .ok i => .ok (i, bytes.drop i.length)

/-- The bytes of an opcode-table word: bit 0 is the least significant bit of the first byte, bits from `nbits` up are 0,
and the longest instruction has three bytes (R60). -/
def tableBytes (nbits w : Nat) : List Byte :=
  let v := w % 2 ^ nbits
  [BitVec.ofNat 8 v, BitVec.ofNat 8 (v / 256), BitVec.ofNat 8 (v / 65536)]

/-- The instruction the decoder reads from an opcode-table word. -/
def decodeTableWord (nbits w : Nat) : Option Instr :=
  match decode (tableBytes nbits w) with
  | .error _ => none
  | .ok (i, _) => some i

end Sys2Proof
end

