-- ==== Sys2Proof/Machine/State.lean ====
section
/-! DEFINITION. The architectural state (10_state.md), the fault record (60_exceptions.md R170 to R174), the reasons a
step can stop, and the state after construction (70_reset_and_hazards.md R200). -/

namespace Sys2Proof.Machine

/-- A checked register index: the `ok` bit of R34 holds of it (R24). -/
abbrev RegIdx := Fin Config.regCount

/-- A checked memory address: in [0, 256) (R42). -/
abbrev Addr := Fin Config.memSize

/-- Memory: (address, byte) pairs in ONE canonical form (`Memory.wf`). DESIGN CHOICE (safe, log 3): the spec's array of
256 bytes is held as the list of the cells that differ from what they hold at construction. -/
abbrev Memory := List Host.Cell

/-- The canonical form: addresses strictly rise, each is in [0, 256) (R42), and no listed byte is what an unlisted
address reads as. -/
abbrev Memory.wf (m : Memory) : Prop :=
  m.Pairwise (fun c d => c.1 < d.1) ∧ ∀ c ∈ m, c.1 < Config.memSize ∧ c.2 ≠ Config.memFill

/-- The register file (R21): eight byte registers, none hard-wired, none aliased. -/
abbrev RegFile := Vector Byte Config.regCount

/-- Which bound an OutOfRange fault reports (R172). -/
inductive RangeKind where
  | opcodeFetch | operandFetch | registerIndex | stackRead | stackWrite
  deriving DecidableEq, Repr

/-- The three fatal conditions with the fields each records (R170). -/
inductive Cause where
  /-- Code 1: the opcode byte is in no row of the dispatch table (R171). -/
  | unknownOpcode (op : Byte)
  /-- Code 2: an address or a register index is out of bounds; `value` is signed so that it can record -1 (R172). -/
  | outOfRange (kind : RangeKind) (value : Int)
  /-- Code 3: the alu does not implement the operation; unreachable (R133, R173). -/
  | unsupportedOperation (op : AluOp)
  deriving DecidableEq, Repr

/-- The record a fault saves: its cause and the address of the faulting instruction's opcode (R170, R174). -/
structure FaultRecord where
  cause : Cause
  pc : Ptr
  deriving DecidableEq, Repr

/-- The run status (R27). -/
inductive Status where
  | running
  | halted
  | faulted (record : FaultRecord)
  deriving DecidableEq, Repr

/-- The machine's state: the tuple at the head of 10_state.md, and nothing else (R29, R31). -/
structure State where
  /-- The 256-byte memory of code, data and stack (R20, R33). -/
  mem : Memory
  /-- The general registers R0 to R7 (R21). -/
  x : RegFile
  /-- The program counter (R25). -/
  pc : Ptr
  /-- The stack pointer, a scalar of its own (R26). -/
  sp : Ptr
  /-- The flag register: no bit defined, never read or written (R28). -/
  fl : Byte
  /-- The run status and, in Faulted, the fault record (R27, R174). -/
  status : Status
  /-- The output stream, in emission order (R30). -/
  out : List Byte
  deriving DecidableEq, Repr

/-- Why `step` has no next state. The fatal conditions of R170 are NOT here: taking one is a next state whose `status`
is Faulted (R174, log 1). DESIGN CHOICE (safe, log 2): R91's "has no step" is a fault of its own name. -/
inductive Fault where
  /-- Raised by `step` of a machine that has Halted (R91). Safe: the machine has no step there. -/
  | alreadyHalted
  /-- Raised by `step` of a machine that has Faulted (R91). Safe: the machine has no step there. -/
  | alreadyFaulted (record : FaultRecord)
  deriving DecidableEq, Repr

/-- What the model has no meaning for. -/
inductive Refusal where
  /-- An instruction without a meaning yet; raised by no arm of `exec`. Safe: nothing follows from a refusal. -/
  | notModelled (mnemonic : String)
  deriving DecidableEq, Repr

/-- The machine after construction, before the host loads a program (R200). -/
def State.reset : State where
  mem := []
  x := Vector.replicate Config.regCount Config.regReset
  pc := Config.pcReset
  sp := Config.spReset
  fl := Config.flReset
  status := .running
  out := []

end Sys2Proof.Machine
end

