-- ==== Sys2Proof/Machine/Flags.lean ====
section
/-! DEFINITION. Every flag computation the spec gives, which is one: no instruction writes the flag register, no flag bit
is defined, and no operation sets a flag as a side effect (10_state.md R28; 42_register_alu.md R132, R134). -/

namespace Sys2Proof.Machine

/-- The flag register after any instruction: what it was before (R28). -/
def flagsAfter (fl : Byte) : Byte := fl

end Sys2Proof.Machine
end

