-- ==== Sys2Proof/Machine/Ops.lean ====
section
/-! DEFINITION. The shared operations: memory access (20_memory.md R40 to R42), `fetch_unit` (R81), the staged writes of
a handler and their commit (R86, R90, R204), `program_counter_advance` (R88, R89), and taking a fault (R174, R175). -/

namespace Sys2Proof.Machine

/-! ### Memory cells -/

/-- The byte held in cell `a`: the listed byte, or the construction value where none is listed (R20, R40). -/
def Memory.byteAt (m : Memory) (a : Nat) : Byte :=
  match m.find? (fun c => c.1 == a) with
  | some c => c.2
  | none => Config.memFill

/-- Insert a cell before the first cell of a higher address. -/
def Memory.insertCell (c : Host.Cell) : Memory → Memory
  | [] => [c]
  | d :: m => if c.1 < d.1 then c :: d :: m else d :: Memory.insertCell c m

/-- Set cell `a` to `v`, keeping the canonical form: the value an unlisted address reads as is not listed (R41). -/
def Memory.setByte (m : Memory) (a : Nat) (v : Byte) : Memory :=
  let rest := m.filter (fun c => c.1 != a)
  if v = Config.memFill then rest else Memory.insertCell (a, v) rest

/-- Set consecutive cells from `a` upward; an address outside [0, 256) has no cell to set (R42, R190). -/
def Memory.setBytes (m : Memory) (a : Nat) : List Byte → Memory
  | [] => m
  | v :: vs => Memory.setBytes (if a < Config.memSize then m.setByte a v else m) (a + 1) vs

/-! ### Checked accesses -/

/-- The range check of every access: an address outside [0, 256) raises OutOfRange with the access's kind and the exact
address (R42, R172). -/
def checkAddr (kind : RangeKind) (addr : Int) : Except Cause Addr :=
  if h : 0 ≤ addr ∧ addr < Config.memSize then .ok ⟨addr.toNat, by omega⟩ else .error (.outOfRange kind addr)

/-- `MemRead(addr, 1)` (R40). -/
def memRead (kind : RangeKind) (m : Memory) (addr : Int) : Except Cause Byte :=
  match checkAddr kind addr with
  | .error c => .error c
  | .ok a => .ok (m.byteAt a)

/-- `MemWrite(addr, 1, v)` up to the commit: the checked, staged write (R41). A byte needs no truncation. -/
def memWrite (kind : RangeKind) (addr : Int) (v : Byte) : Except Cause (Addr × Byte) :=
  match checkAddr kind addr with
  | .error c => .error c
  | .ok a => .ok (a, v)

/-! ### Fetch -/

/-- One guarded read port of `fetch_unit` (R81). -/
def fetchPort (m : Memory) (a : Nat) : Option Byte :=
  if a < Config.memSize then some (m.byteAt a) else none

/-- `fetch_unit` (R81): three consecutive cells, each read guarded. It never faults. -/
def fetchUnit (pc : Ptr) (m : Memory) : Fetched where
  op := fetchPort m pc.toNat
  a := fetchPort m (pc.toNat + 1)
  b := fetchPort m (pc.toNat + 2)

/-- The fault each decoding failure raises at `pc` (R82, R83, R85). -/
def decodeCause (pc : Ptr) : DecodeError → Cause
  | .opcodeMissing => .outOfRange .opcodeFetch pc.toNat
  | .unknownOpcode op => .unknownOpcode op
  | .operandAMissing => .outOfRange .operandFetch (pc.toNat + 1)
  | .operandBMissing => .outOfRange .operandFetch (pc.toNat + 2)

/-- The instruction at the program counter, or the fault its fetch raises: checks 1 to 4 of R176. -/
def fetchInstr (s : State) : Except Cause Instr :=
  match decodeFetched (fetchUnit s.pc s.mem) with
  | .error e => .error (decodeCause s.pc e)
  | .ok i => .ok i

/-! ### Handlers, commit and fault entry -/

/-- What a handler returns besides its writes (R86). -/
structure HandlerResult where
  operandCount : Nat
  running : Bool
  deriving DecidableEq, Repr

/-- The writes a handler stages: at most one register, one memory cell, the stack pointer and one output value (R86). -/
structure Writes where
  reg : Option (RegIdx × Byte) := none
  mem : Option (Addr × Byte) := none
  sp : Option Ptr := none
  out : Option Byte := none
  deriving DecidableEq, Repr

/-- A handler's answer: the fault it raises, or its result and staged writes (R86). -/
abbrev Handled := Except Cause (HandlerResult × Writes)

/-- The numeric code of a cause (R170). -/
def causeCode : Cause → Nat
  | .unknownOpcode _ => 1
  | .outOfRange _ _ => 2
  | .unsupportedOperation _ => 3

/-- Taking a fault (R174, R175): the status becomes Faulted with the record, and nothing else changes. There is no
return from a fault (R178). -/
def raiseFault (s : State) (c : Cause) : State :=
  { s with status := .faulted { cause := c, pc := s.pc } }

/-- `program_counter_advance` (R88, R89). -/
def programCounterAdvance (pc : Ptr) (n : Nat) (running : Bool) : Ptr × Status :=
  (pc + BitVec.ofNat 9 (n + 1), if running then .running else .halted)

/-- The write port of `register_file` (R34): the one staged register write takes effect at commit. -/
def writeReg (x : RegFile) : Option (RegIdx × Byte) → RegFile
  | none => x
  | some (i, v) => x.set i v

/-- The commit (R90, R204): all staged writes, the new program counter and the new status together. -/
def commit (s : State) (r : HandlerResult) (w : Writes) : State where
  mem := match w.mem with
    | none => s.mem
    | some (a, v) => s.mem.setByte a v
  x := writeReg s.x w.reg
  pc := (programCounterAdvance s.pc r.operandCount r.running).1
  sp := w.sp.getD s.sp
  fl := flagsAfter s.fl
  status := (programCounterAdvance s.pc r.operandCount r.running).2
  out := s.out ++ w.out.toList

/-- The end of a step (R90): commit, or take the fault the handler raised. -/
def complete (s : State) : Handled → Host.Outcome State Fault Refusal
  | .error c => .next (raiseFault s c)
  | .ok (r, w) => .next (commit s r w)

end Sys2Proof.Machine
end

