-- ==== Sys2Proof/Machine/Operands.lean ====
section
/-! DEFINITION. The operand forms (30_encoding.md R62): a register index, checked on the whole byte against 8
(10_state.md R24), and an immediate, used as is. The read ports of `register_file` (R34). The stack operands of POP and
PUSH (43_stack.md R150, R151). -/

namespace Sys2Proof.Machine

/-- A register operand: the `ok` bit of `register_file`, or OutOfRange RegisterIndex with the operand byte (R24, R34,
R172). No masking to 3 bits (D7). -/
def regOperand (idx : Byte) : Except Cause RegIdx :=
  if h : idx.toNat < Config.regCount then .ok ⟨idx.toNat, h⟩ else .error (.outOfRange .registerIndex idx.toNat)

/-- A read port of `register_file` at a checked index (R34). -/
def readReg (s : State) (i : RegIdx) : Byte := s.x[i]

/-- An immediate operand: the byte as is (R62). -/
def immOperand (imm : Byte) : Byte := imm

/-- The address POP reads: `sp` (R43, R150). -/
def popAddr (s : State) : Int := s.sp.toNat

/-- The address PUSH writes: `sp - 1`, exact, so -1 at `sp = 0` (R42, R43, R151). -/
def pushAddr (s : State) : Int := (s.sp.toNat : Int) - 1

end Sys2Proof.Machine
end

