-- ==== Sys2Proof/Machine/ControlIo.lean ====
section
/-! DEFINITION. The instructions HALT and PRINT_REGISTER (41_control_io.md). -/

namespace Sys2Proof.Machine

/-- The HALT handler (R110): no staged writes, not running. -/
def handleHalt : Handled :=
  .ok ({ operandCount := 0, running := false }, {})

/-- HALT (R110): the status becomes Halted and `pc` moves one past the opcode (R88; the spec's decision D23 on its
conflict C4, log 7: unsafe for a claim that reads the final `pc`). -/
def execHalt (s : State) : Host.Outcome State Fault Refusal :=
  complete s handleHalt

/-- The PRINT_REGISTER handler (R111). -/
def handlePrintRegister (reg : Byte) (s : State) : Handled := do
  let a ← regOperand reg
  return ({ operandCount := 1, running := true }, { out := some (readReg s a) })

/-- PRINT_REGISTER (R111): one value is appended to the output stream. -/
def execPrintRegister (reg : Byte) (s : State) : Host.Outcome State Fault Refusal :=
  complete s (handlePrintRegister reg s)

end Sys2Proof.Machine
end

