-- ==== Sys2Proof/Machine/RegisterAlu.lean ====
section
/-! DEFINITION. The sub-block `alu` and the instructions LOAD_IMMEDIATE and MULTIPLY (42_register_alu.md). -/

namespace Sys2Proof.Machine

/-- The outputs of the `alu` (R131). -/
structure AluOut where
  y : Byte
  supported : Bool
  deriving DecidableEq, Repr

/-- The `alu` (R131, R134): the exact product of two unsigned bytes, kept modulo 256. `supported` is 0 for no value of
the one-value enumeration `alu_op` (D21). -/
def alu (op : AluOp) (p q : Byte) : AluOut :=
  match op with
  | .mul => { y := BitVec.ofNat 8 (p.toNat * q.toNat % 256), supported := true }

/-- The alu's result, or UnsupportedOperation (R133). -/
def aluResult (op : AluOp) (p q : Byte) : Except Cause Byte :=
  if (alu op p q).supported then .ok (alu op p q).y else .error (.unsupportedOperation op)

/-- The LOAD_IMMEDIATE handler (R130). -/
def handleLoadImmediate (reg imm : Byte) : Handled := do
  let a ← regOperand reg
  return ({ operandCount := 2, running := true }, { reg := some (a, immOperand imm) })

/-- LOAD_IMMEDIATE (R130): `x[reg]` becomes the immediate. -/
def execLoadImmediate (reg imm : Byte) (s : State) : Host.Outcome State Fault Refusal :=
  complete s (handleLoadImmediate reg imm)

/-- The MULTIPLY handler (R132): index A is checked before index B, both registers are read at the start of the step. -/
def handleMultiply (regA regB : Byte) (s : State) : Handled := do
  let a ← regOperand regA
  let b ← regOperand regB
  let y ← aluResult .mul (readReg s a) (readReg s b)
  return ({ operandCount := 2, running := true }, { reg := some (a, y) })

/-- MULTIPLY (R132): `x[regA]` becomes `x[regA] * x[regB]` modulo 256. -/
def execMultiply (regA regB : Byte) (s : State) : Host.Outcome State Fault Refusal :=
  complete s (handleMultiply regA regB s)

end Sys2Proof.Machine
end

