-- ==== Sys2Proof/Machine/StackOps.lean ====
section
/-! DEFINITION. The instructions POP and PUSH (43_stack.md). The register index is checked before the stack address
(60_exceptions.md R176). DEDUCED (safe, log 5): in the states no run reaches (`sp` above 256) the stack address meets
the range check of R40 and R41 like every other address. -/

namespace Sys2Proof.Machine

/-- The POP handler (R150): the register write and the `sp` write commit together. -/
def handlePop (reg : Byte) (s : State) : Handled := do
  let a ← regOperand reg
  let v ← memRead .stackRead s.mem (popAddr s)
  return ({ operandCount := 1, running := true }, { reg := some (a, v), sp := some (s.sp + 1) })

/-- POP (R150): `x[reg]` becomes the byte at `sp`, and `sp` moves up by one. -/
def execPop (reg : Byte) (s : State) : Host.Outcome State Fault Refusal :=
  complete s (handlePop reg s)

/-- The PUSH handler (R151): the register is read at the start of the step. -/
def handlePush (reg : Byte) (s : State) : Handled := do
  let a ← regOperand reg
  let w ← memWrite .stackWrite (pushAddr s) (readReg s a)
  return ({ operandCount := 1, running := true }, { mem := some w, sp := some (s.sp - 1) })

/-- PUSH (R151): `sp` moves down by one, and the cell there becomes `x[reg]`. -/
def execPush (reg : Byte) (s : State) : Host.Outcome State Fault Refusal :=
  complete s (handlePush reg s)

end Sys2Proof.Machine
end

