-- ==== Sys2Proof/Machine/Dispatch.lean ====
section
/-! DEFINITION. The dispatch from an instruction to its meaning (40_fetch_decode_dispatch.md R84, R86). `exec` is the
handler and its commit; R90's premise that the machine is Running is checked by `step` (log 4). -/

namespace Sys2Proof.Machine

def exec (i : Instr) (s : State) : Host.Outcome State Fault Refusal :=
  match i with
  | .halt => Sys2Proof.Machine.execHalt s
  | .loadImmediate reg imm => Sys2Proof.Machine.execLoadImmediate reg imm s
  | .printRegister reg => Sys2Proof.Machine.execPrintRegister reg s
  | .multiply regA regB => Sys2Proof.Machine.execMultiply regA regB s
  | .pop reg => Sys2Proof.Machine.execPop reg s
  | .push reg => Sys2Proof.Machine.execPush reg s

end Sys2Proof.Machine
end

