-- ==== Sys2Proof/Machine/Step.lean ====
section
/-! DEFINITION. One step of the machine (40_fetch_decode_dispatch.md R90, R91), and the host's placing of one
instruction where the next step fetches it. -/

namespace Sys2Proof.Machine

/-- One step (R90): defined only while Running (R91); the fetch checks, then the instruction's handler and commit. -/
def step (s : State) : Host.Outcome State Fault Refusal :=
  match s.status with
  | .halted => .fault .alreadyHalted
  | .faulted r => .fault (.alreadyFaulted r)
  | .running =>
    match fetchInstr s with
    | .error c => .next (raiseFault s c)
    | .ok i => exec i s

/-- `s` with the bytes of an opcode-table word stored at `pc`, `pc + 1` and `pc + 2`, where `step` fetches (log 10). -/
def State.withFetchWord (s : State) (nbits w : Nat) : State :=
  { s with mem := s.mem.setBytes s.pc.toNat (tableBytes nbits w) }

end Sys2Proof.Machine
end

