-- ==== Sys2Proof/Machine/HostInterface.lean ====
section
/-! DEFINITION. The host interface (60_exceptions.md R190 to R193, 30_encoding.md R73): what the CORE receives before
its first step and what it hands over at the end. The host is outside the block (00_scope.md R5); nothing here is called
by `step`. Text is a list of characters. -/

namespace Sys2Proof.Machine

/-- The launch state (R190, R201, R202): the construction state with the `j`-th value written to address `j` through the
write contract, which truncates to 8 bits. The spec states this for at most 256 values (log 9). -/
def State.launch (values : List Nat) : State :=
  { State.reset with mem := Memory.setBytes [] 0 (values.map (BitVec.ofNat 8)) }

/-- What one line of the program text is (R73). -/
inductive TextLine where
  /-- Nothing is left once the comment is stripped: skipped, and it uses no address. -/
  | blank
  /-- An 8-character binary literal, as an unsigned integer. -/
  | value (v : Nat)
  /-- A line whose treatment the spec does not state (N12), surrounding white space included. -/
  | unstated
  deriving DecidableEq, Repr

/-- One more binary digit, most significant first. -/
def pushDigit (v : Nat) (c : Char) : Option Nat :=
  if c = '0' then some (2 * v) else if c = '1' then some (2 * v + 1) else none

/-- The unsigned value of a binary literal. -/
def parseBinary (v : Nat) : List Char → Option Nat
  | [] => some v
  | c :: cs =>
    match pushDigit v c with
    | some v' => parseBinary v' cs
    | none => none

/-- One line: everything from `#` on is stripped, then the rest is blank, a literal or unstated (R73). -/
def parseLine (line : List Char) : TextLine :=
  let rest := line.takeWhile (fun c => c != '#')
  if rest = [] then .blank
  else if rest.length = 8 then
    match parseBinary 0 rest with
    | some v => .value v
    | none => .unstated
  else .unstated

/-- The lines of a text. DESIGN CHOICE (unsafe, log 21): the character that ends a line is the line feed alone, on which the
spec is silent. -/
def splitLines : List Char → List (List Char)
  | [] => [[]]
  | c :: cs =>
    if c = '\n' then [] :: splitLines cs
    else
      match splitLines cs with
      | [] => [[c]]
      | l :: ls => (c :: l) :: ls

/-- The values of the non-blank lines, in order; `none` where some line's treatment is unstated. -/
def parseLines : List (List Char) → Option (List Nat)
  | [] => some []
  | l :: ls =>
    match parseLine l with
    | .blank => parseLines ls
    | .value v => (parseLines ls).map (v :: ·)
    | .unstated => none

/-- The launch state the loader policy gives a text the spec leaves open (D16); `none` is a host error. -/
def policyLaunch (text : List Char) : Option State :=
  (Config.loaderPolicy text).map fun image => State.launch (image.toList.map BitVec.toNat)

/-- Loading a program text (R73, R190): the stated format gives the launch state, any other text is the OPEN
`loader_policy`'s. -/
def launchText (text : List Char) : Option State :=
  match parseLines (splitLines text) with
  | some values => if values.length ≤ Config.memSize then some (State.launch values) else policyLaunch text
  | none => policyLaunch text

/-- The host's two output streams (R191, R192). -/
inductive HostStream where
  | standardOutput | standardError
  deriving DecidableEq, Repr

/-- What an invocation of the host comes to before the first step (R191). -/
inductive Invocation where
  /-- The machine runs from this launch state. -/
  | machine (s : State)
  /-- Not exactly one program-file argument; the CORE never runs. -/
  | usageError
  /-- The program file cannot be opened; the CORE never runs. -/
  | programFileNotFound
  /-- The loader policy reports an error; the CORE never runs (D16). -/
  | loaderError
  deriving DecidableEq, Repr

/-- The invocation contract (R191). An argument is given by its file's text, or `none` if it cannot be opened. -/
def hostInvoke : List (Option (List Char)) → Invocation
  | [some text] =>
    match launchText text with
    | some s => .machine s
    | none => .loaderError
  | [none] => .programFileNotFound
  | _ => .usageError

/-- The exit code and stream of the two host conditions R191 fixes. -/
def invocationExit : Invocation → Option (Nat × HostStream)
  | .usageError => some (1, .standardError)
  | .programFileNotFound => some (2, .standardOutput)
  | .machine _ | .loaderError => none

/-- One output value as its unsigned decimal digits (R192). -/
def renderValue (v : Byte) : List Char := Nat.toDigits 10 v.toNat

/-- The output stream as the host's lines, in order (R192). The bytes of a line end are the host's (D12, log 14). -/
def renderLines (out : List Byte) : List (List Char) := out.map renderValue

/-- One line the host writes: its stream and its text, one line end after it (R192). The bytes of a line end are the
host's (D12, log 14). -/
structure HostLine where
  stream : HostStream
  text : List Char
  deriving DecidableEq, Repr

/-- What the host writes of an output stream: each value's line, in order, on the standard output stream (R192). -/
def outputLines (out : List Byte) : List HostLine :=
  (renderLines out).map fun text => { stream := .standardOutput, text := text }

/-- What the host reports of a Faulted run (R193). DESIGN CHOICE (safe, log 22): the report is this datum alone; the stream
it goes to and its text, which the spec does not give, are not modelled. -/
inductive FaultReport where
  /-- UnknownOpcode: the offending byte value (R171, R193). -/
  | offendingByte (op : Byte)
  /-- Every other cause: the fault record (R174, R193). -/
  | record (r : FaultRecord)
  deriving DecidableEq, Repr

/-- The report of a fault: the offending byte for UnknownOpcode, the record for the other causes (R193). -/
def faultReport (r : FaultRecord) : FaultReport :=
  match r.cause with
  | .unknownOpcode op => .offendingByte op
  | .outOfRange _ _ => .record r
  | .unsupportedOperation _ => .record r

/-- The exit status of a run (R193, D20): none while it is Running. -/
def exitStatus : Status → Option Nat
  | .running => none
  | .halted => some 0
  | .faulted _ => some Config.exitCodeFault

/-- What an ended run comes to at the host (R192, R193). Whether output is flushed before a fault is reported is not
stated, and `printed` and `report` are in no order here (log 22). -/
structure RunEnd where
  /-- The final state, as the CORE hands it over: status and fault record, output, memory, registers, `pc`, `sp`, `fl`. -/
  final : State
  /-- The lines of its output stream. -/
  printed : List HostLine
  /-- The report of a Faulted run; a Halted run has none. -/
  report : Option FaultReport
  /-- The exit status. -/
  exitCode : Nat
  deriving DecidableEq, Repr

/-- The fault report of a status: a Faulted one's, and none else (R193). -/
def statusReport : Status → Option FaultReport
  | .running | .halted => none
  | .faulted r => some (faultReport r)

/-- What the host makes of a state: none while it is Running, since the run has not ended (R193). -/
def runEnd (s : State) : Option RunEnd :=
  (exitStatus s.status).map fun code =>
    { final := s, printed := outputLines s.out, report := statusReport s.status, exitCode := code }

/-- The run from `s`, handed over at its end: the first state that is not Running (R193); `none` where that is more than
`fuel` steps away. -/
def hostRun : Nat → State → Option RunEnd
  | 0, s => runEnd s
  | fuel + 1, s =>
    match runEnd s, step s with
    | some e, _ => some e
    | none, .next t => hostRun fuel t
    | none, .fault _ => none
    | none, .refused _ => none

end Sys2Proof.Machine
end

