-- ==== Sys2Proof/Safety.lean ====
section
/-! DEFINITION. What claims are stated in terms of: the invariant of every state a run reaches, and how a run ends. -/

namespace Sys2Proof.Machine

/-- A fault record tells the truth about the final state it stands in (R170 to R175): the `pc` is the machine's, and each
cause carries the only values R172 says occur. UnsupportedOperation never stands there (R133, R173). -/
def recordTrue (s : State) (r : FaultRecord) : Bool :=
  r.pc == s.pc &&
  match r.cause with
  | .unknownOpcode op => fetchPort s.mem s.pc.toNat == some op && (dispatchLookup op).isNone
  | .outOfRange .opcodeFetch v => s.pc == 256 && v == 256
  | .outOfRange .operandFetch v => (s.pc == 254 || s.pc == 255) && v == 256
  | .outOfRange .registerIndex v => decide (8 ≤ v ∧ v ≤ 255)
  | .outOfRange .stackRead v => s.sp == 256 && v == 256
  | .outOfRange .stackWrite v => s.sp == 0 && v == -1
  | .unsupportedOperation _ => false

/-- The state's fault record, where it has one, tells the truth. -/
def statusTrue (s : State) : Bool :=
  match s.status with
  | .running => true
  | .halted => true
  | .faulted r => recordTrue s r

/-- The invariant every step keeps: memory is canonical, `pc` and `sp` hold 0 to 256 (R25, R26), and a fault record is
true. -/
abbrev State.Inv (s : State) : Prop :=
  s.mem.wf ∧ s.pc.toNat ≤ 256 ∧ s.sp.toNat ≤ 256 ∧ statusTrue s = true

/-- The run has ended: the status is not Running (R193). -/
def State.ended (s : State) : Bool :=
  match s.status with
  | .running => false
  | .halted => true
  | .faulted _ => true

/-- The run ended clean (R27, R89). -/
def State.cleanHalt (s : State) : Bool :=
  match s.status with
  | .halted => true
  | .running => false
  | .faulted _ => false

/-- The machine has faulted (R174). -/
def State.hasFaulted (s : State) : Bool :=
  match s.status with
  | .faulted _ => true
  | .running => false
  | .halted => false

end Sys2Proof.Machine
end

