-- ==== Sys2Proof/Certificates/Slice0/Obligations.lean ====
section
/-! DEFINITION. The statements for the provers, from the numbered rules of spec/. Literals (opcodes, sizes, 244) are
written out here from the spec and not taken from Config, so that a wrong table shows. -/

open Sys2Proof Sys2Proof.Machine

namespace Sys2Proof.Stated

/-- `s` after a fault, as R174 and R175 write it: only the status changes, to Faulted with the cause and `pc`. -/
abbrev stopped (s : State) (c : Cause) : State := { s with status := .faulted { cause := c, pc := s.pc } }

/-- `bs` stand in memory from the program counter on, all inside [0, 256). -/
abbrev bytesAtPc (s : State) (bs : List Byte) : Prop :=
  s.pc.toNat + bs.length ≤ 256 ∧ (List.range bs.length).map (fun j => s.mem.byteAt (s.pc.toNat + j)) = bs

/-- Every byte of memory from the program counter to address 255. -/
abbrev memoryFromPc (s : State) : List Byte :=
  (List.range (256 - s.pc.toNat)).map fun j => s.mem.byteAt (s.pc.toNat + j)

/-- The byte at the program counter. -/
abbrev opcodeAt (s : State) : Byte := s.mem.byteAt s.pc.toNat

/-- The six opcode bytes of R64. -/
abbrev opcodes : List Byte := [0x01, 0x82, 0x47, 0xA2, 0x46, 0x45]

/-- The operand count of R64, by opcode byte. -/
def operandCountOf (op : Byte) : Nat :=
  if op = 0x82 ∨ op = 0xA2 then 2 else if op = 0x47 ∨ op = 0x46 ∨ op = 0x45 then 1 else 0

/-- The first fault of a step in the order of R176, from the bytes alone. Check 8 (ALU operation supported) has no entry:
it fails for no opcode (R133). -/
def firstFault (s : State) : Option Cause :=
  let pc := s.pc.toNat
  let op := s.mem.byteAt pc
  let a := (s.mem.byteAt (pc + 1)).toNat
  let b := (s.mem.byteAt (pc + 2)).toNat
  if 256 ≤ pc then some (.outOfRange .opcodeFetch pc)
  else if op ∉ opcodes then some (.unknownOpcode op)
  else if 1 ≤ operandCountOf op ∧ 256 ≤ pc + 1 then some (.outOfRange .operandFetch (pc + 1))
  else if operandCountOf op = 2 ∧ 256 ≤ pc + 2 then some (.outOfRange .operandFetch (pc + 2))
  else if op ≠ 0x01 ∧ 8 ≤ a then some (.outOfRange .registerIndex a)
  else if op = 0xA2 ∧ 8 ≤ b then some (.outOfRange .registerIndex b)
  else if op = 0x46 ∧ 256 ≤ s.sp.toNat then some (.outOfRange .stackRead s.sp.toNat)
  else if op = 0x45 ∧ s.sp = 0 then some (.outOfRange .stackWrite (-1))
  else none

/-- The first register operand, in the order A then B, that is 8 or more (R24, R176). -/
def firstBadReg : Instr → Option Byte
  | .halt => none
  | .loadImmediate reg _ => if 8 ≤ reg.toNat then some reg else none
  | .printRegister reg => if 8 ≤ reg.toNat then some reg else none
  | .multiply regA regB => if 8 ≤ regA.toNat then some regA else if 8 ≤ regB.toNat then some regB else none
  | .pop reg => if 8 ≤ reg.toNat then some reg else none
  | .push reg => if 8 ≤ reg.toNat then some reg else none

/-- The stack address of the instruction is in range: POP reads `sp`, PUSH writes `sp - 1` (R150, R151). -/
def stackInRange (s : State) : Instr → Prop
  | .pop _ => s.sp.toNat < 256
  | .push _ => 1 ≤ s.sp.toNat ∧ s.sp.toNat ≤ 256
  | .halt | .loadImmediate _ _ | .printRegister _ | .multiply _ _ => True

/-- Instructions executed one after the other, each on the state the one before left, which must be Running: `none` as soon
as a state with an instruction still to execute is not Running, so a fault on the way is not passed over. -/
def execAll : List Instr → State → Option State
  | [], s => some s
  | i :: is, s =>
    match s.status, exec i s with
    | .running, .next t => execAll is t
    | _, _ => none

/-- What a read port of the fetch unit shows at address `a` after a PUSH in `s` of the value `v` (R42, R81, R151). -/
def portAfterPush (s : State) (v : Byte) (a : Nat) : Option Byte :=
  if a < 256 then some (if (a : Int) = (s.sp.toNat : Int) - 1 then v else s.mem.byteAt a) else none

/-- The 8-character binary literal of a byte's value, most significant digit first (R73). -/
def literal (v : Nat) : List Char := (List.range 8).map fun k => if v.testBit (7 - k) then '1' else '0'

/-- One line of a program text in R73's format: a literal or nothing, then a comment or nothing, then the line end. -/
def textLine (item : Option Nat × Option (List Char)) : List Char :=
  (match item.1 with
    | some v => literal v
    | none => []) ++
  (match item.2 with
    | some comment => '#' :: comment
    | none => []) ++ ['\n']

/-- The value of a string of decimal digits. -/
def decimalValue (cs : List Char) : Nat := cs.foldl (fun v c => 10 * v + (c.toNat - '0'.toNat)) 0

end Sys2Proof.Stated

open Sys2Proof.Stated

/-! ### Construction -/

/-- R200: every field of the state after construction. `fl = 0` is the spec's decision D6. -/
def Obligations.ConstructionState : Prop :=
  (∀ a : Nat, a < 256 → State.reset.mem.byteAt a = 0) ∧ (∀ i : Fin 8, State.reset.x[i] = 0) ∧
  State.reset.pc = 0 ∧ State.reset.sp = 244 ∧ State.reset.fl = 0 ∧ State.reset.status = .running ∧ State.reset.out = []

/-! ### Encoding -/

/-- R61, R64: words written out from the opcode map decode to their instructions, and four bytes beside the map do not. -/
def Obligations.WrittenOutWordsDecode : Prop :=
  decode [0b00000001] = .ok (.halt, []) ∧
  decode [0b10000010, 0b00000000, 0b00001000] = .ok (.loadImmediate 0 8, []) ∧
  decode [0b01000111, 0b00000010] = .ok (.printRegister 2, []) ∧
  decode [0b10100010, 0b00000000, 0b00000001] = .ok (.multiply 0 1, []) ∧
  decode [0b01000110, 0b00000111] = .ok (.pop 7, []) ∧
  decode [0b01000101, 0b00000011] = .ok (.push 3, []) ∧
  decode [0x00, 0, 0] = .error (.unknownOpcode 0x00) ∧ decode [0xFF, 0, 0] = .error (.unknownOpcode 0xFF) ∧
  decode [0x80, 0, 0] = .error (.unknownOpcode 0x80) ∧ decode [0xA0, 0, 0] = .error (.unknownOpcode 0xA0)

/-- R84: the dispatch table hits exactly on the six opcodes, with the row's kind and operand count. -/
def Obligations.DispatchTableHitsExactlySix : Prop :=
  ∀ op : Byte, (dispatchLookup op).map (fun row => (row.kind, row.operandCount)) =
    if op = 0x01 then some (.halt, 0) else if op = 0x82 then some (.loadImmediate, 2)
    else if op = 0x47 then some (.printRegister, 1) else if op = 0xA2 then some (.multiply, 2)
    else if op = 0x46 then some (.pop, 1) else if op = 0x45 then some (.push, 1) else none

/-- From the opcode values of R64 (R67 marks it as derived): in every accepted opcode bits 7:6 are the operand count, bit
5 is set exactly in MULTIPLY, bit 4 is 0. -/
def Obligations.AcceptedOpcodeFields : Prop :=
  ∀ (op : Byte) (d : DecoderOut), instructionDecoder op = some d →
    (op.toNat / 64 = d.operandCount) ∧ (op.getLsbD 5 = d.usesAlu) ∧ op.getLsbD 4 = false

/-- R61, R63, R64, R65: the decoder answers an instruction and the bytes after it exactly where the bytes begin with that
instruction's encoding, at every value of every operand, legal or not. So no bit of an encoding is dropped, and nothing
but an encoding decodes. -/
def Obligations.DecodeAndEncodeAgree : Prop :=
  ∀ (bytes rest : List Byte) (i : Instr), decode bytes = .ok (i, rest) ↔ bytes = encode i ++ rest

/-! ### Fetch and the step -/

/-- R40: MemRead of an address in [0, 256) is the byte held there; of any other, OutOfRange with the access's kind and
the address. -/
def Obligations.MemReadChecksItsRange : Prop :=
  ∀ (kind : RangeKind) (m : Memory) (addr : Int),
    (0 ≤ addr → addr < 256 → memRead kind m addr = .ok (m.byteAt addr.toNat)) ∧
    (addr < 0 ∨ 256 ≤ addr → memRead kind m addr = .error (.outOfRange kind addr))

/-- R81: each of the three reads is guarded by its own address. -/
def Obligations.FetchUnitGuardsEachRead : Prop :=
  ∀ (pc : Ptr) (m : Memory),
    (fetchUnit pc m).op = (if pc.toNat < 256 then some (m.byteAt pc.toNat) else none) ∧
    (fetchUnit pc m).a = (if pc.toNat + 1 < 256 then some (m.byteAt (pc.toNat + 1)) else none) ∧
    (fetchUnit pc m).b = (if pc.toNat + 2 < 256 then some (m.byteAt (pc.toNat + 2)) else none)

/-- R90: a Running machine whose bytes from `pc` on decode to an instruction, well-formed or not, executes it; there is
nothing else in the step. -/
def Obligations.StepRunsTheDecodedInstruction : Prop :=
  ∀ (s : State) (i : Instr) (rest : List Byte), s.status = .running → decode (memoryFromPc s) = .ok (i, rest) →
    step s = exec i s

/-- R91: a Halted or Faulted machine has no step, however long it is asked. -/
def Obligations.StoppedMachineHasNoStep : Prop :=
  ∀ (s : State), s.status ≠ .running → ∀ (k : Nat) (t : State), Sys2Proof.core.run (k + 1) s ≠ .next t

/-- R82: an opcode fetch at `pc` of 256 or more raises OutOfRange OpcodeFetch and nothing else happens. -/
def Obligations.OpcodeFetchBeyondMemoryFaults : Prop :=
  ∀ s : State, s.status = .running → 256 ≤ s.pc.toNat →
    step s = .next (stopped s (.outOfRange .opcodeFetch s.pc.toNat))

/-- R171: any opcode byte outside the six raises UnknownOpcode, recorded with the byte and its address. -/
def Obligations.UnknownOpcodeFaults : Prop :=
  ∀ s : State, s.status = .running → s.pc.toNat < 256 → opcodeAt s ∉ opcodes →
    step s = .next (stopped s (.unknownOpcode (opcodeAt s)))

/-- R83: a declared operand beyond memory faults, A before B; with every declared operand in memory the step is the
instruction's, and an undeclared operand's place is ignored. -/
def Obligations.DeclaredOperandsAreFetched : Prop :=
  ∀ s : State, s.status = .running → s.pc.toNat < 256 → opcodeAt s ∈ opcodes →
    (1 ≤ operandCountOf (opcodeAt s) → 256 ≤ s.pc.toNat + 1 →
      step s = .next (stopped s (.outOfRange .operandFetch (s.pc.toNat + 1)))) ∧
    (operandCountOf (opcodeAt s) = 2 → s.pc.toNat + 1 < 256 → 256 ≤ s.pc.toNat + 2 →
      step s = .next (stopped s (.outOfRange .operandFetch (s.pc.toNat + 2)))) ∧
    (s.pc.toNat + operandCountOf (opcodeAt s) < 256 →
      ∃ i : Instr, bytesAtPc s (encode i) ∧ step s = exec i s)

/-- R46, R81: the bytes an instruction does not declare are not observed. Two machines that differ only in memory, and
agree on the opcode and the declared operands (and, for POP, on the byte at `sp`, which it reads), step alike in every
other field. -/
def Obligations.UndeclaredBytesAreNotObserved : Prop :=
  ∀ (s : State) (m : Memory), s.status = .running →
    (opcodeAt s = 0x46 → m.byteAt s.sp.toNat = s.mem.byteAt s.sp.toNat) →
    (∀ j, j ≤ operandCountOf (opcodeAt s) → m.byteAt (s.pc.toNat + j) = s.mem.byteAt (s.pc.toNat + j)) →
    ∃ t t' : State, step s = .next t ∧ step { s with mem := m } = .next t' ∧ { t' with mem := t.mem } = t

/-- R88, R89: a step that does not fault moves `pc` by the operand count plus one, without wrapping, to 256 at most, and
the status is Halted after HALT and Running otherwise. That HALT advances too is the spec's decision D23 on its conflict
C4 (log 7). -/
def Obligations.ProgramCounterAdvance : Prop :=
  ∀ s t : State, s.status = .running → step s = .next t → t.hasFaulted = false →
    t.pc.toNat = s.pc.toNat + operandCountOf (opcodeAt s) + 1 ∧ t.pc.toNat ≤ 256 ∧
    t.status = (if opcodeAt s = 0x01 then .halted else .running)

/-- R90, R91, R174: while Running the machine always has a next state, a Faulted one where a fatal condition holds (log 1):
no step of it stops in a refusal or in a fault of the model's own. -/
def Obligations.RunningMachineAlwaysSteps : Prop :=
  ∀ s : State, s.status = .running → ∃ t : State, step s = .next t

/-! ### The six instructions, each whole: encoding, effect with its frame, faults in their order -/

/-- R110: HALT. The final `pc` is the spec's decision D23 on its conflict C4 (log 7): one past the opcode. -/
def Obligations.HaltStopsTheRun : Prop :=
  ∀ s : State, s.status = .running →
    exec .halt s = .next { s with pc := s.pc + 1, status := .halted } ∧
    (bytesAtPc s [0x01] → step s = exec .halt s)

/-- R111: PRINT_REGISTER appends the register's value to the output stream and changes nothing else but `pc`. -/
def Obligations.PrintRegisterAppendsItsValue : Prop :=
  ∀ (s : State) (reg : Byte), s.status = .running →
    (∀ h : reg.toNat < 8,
      exec (.printRegister reg) s = .next { s with out := s.out ++ [s.x[reg.toNat]'h], pc := s.pc + 2 }) ∧
    (8 ≤ reg.toNat → exec (.printRegister reg) s = .next (stopped s (.outOfRange .registerIndex reg.toNat))) ∧
    (bytesAtPc s [0x47, reg] → step s = exec (.printRegister reg) s) ∧
    (s.pc = 255 → opcodeAt s = 0x47 → step s = .next (stopped s (.outOfRange .operandFetch 256)))

/-- R130: LOAD_IMMEDIATE writes the immediate, whatever its value, to the register and changes nothing else but `pc`. -/
def Obligations.LoadImmediateWritesItsImmediate : Prop :=
  ∀ (s : State) (reg imm : Byte), s.status = .running →
    (∀ h : reg.toNat < 8,
      exec (.loadImmediate reg imm) s = .next { s with x := s.x.set reg.toNat imm h, pc := s.pc + 3 }) ∧
    (8 ≤ reg.toNat → exec (.loadImmediate reg imm) s = .next (stopped s (.outOfRange .registerIndex reg.toNat))) ∧
    (bytesAtPc s [0x82, reg, imm] → step s = exec (.loadImmediate reg imm) s) ∧
    (s.pc = 254 ∨ s.pc = 255 → opcodeAt s = 0x82 → step s = .next (stopped s (.outOfRange .operandFetch 256)))

/-- R132: MULTIPLY writes the product of the two registers, as they stand at the start of the step, modulo 256 to the
first, and changes nothing else but `pc`; index A is checked before index B. -/
def Obligations.MultiplyWritesTheProduct : Prop :=
  ∀ (s : State) (regA regB : Byte), s.status = .running →
    (∀ (ha : regA.toNat < 8) (hb : regB.toNat < 8),
      exec (.multiply regA regB) s = .next { s with
        x := s.x.set regA.toNat (BitVec.ofNat 8 ((s.x[regA.toNat]'ha).toNat * (s.x[regB.toNat]'hb).toNat % 256)) ha
        pc := s.pc + 3 }) ∧
    (8 ≤ regA.toNat → exec (.multiply regA regB) s = .next (stopped s (.outOfRange .registerIndex regA.toNat))) ∧
    (regA.toNat < 8 → 8 ≤ regB.toNat →
      exec (.multiply regA regB) s = .next (stopped s (.outOfRange .registerIndex regB.toNat))) ∧
    (bytesAtPc s [0xA2, regA, regB] → step s = exec (.multiply regA regB) s) ∧
    (s.pc = 254 ∨ s.pc = 255 → opcodeAt s = 0xA2 → step s = .next (stopped s (.outOfRange .operandFetch 256)))

/-- R150: POP writes the byte at `sp` to the register, moves `sp` up by one and changes nothing else but `pc`, the cell
it reads included; the register index is checked before the stack address. -/
def Obligations.PopReadsTheTopOfStack : Prop :=
  ∀ (s : State) (reg : Byte), s.status = .running →
    (∀ h : reg.toNat < 8, s.sp.toNat < 256 →
      exec (.pop reg) s = .next { s with
        x := s.x.set reg.toNat (s.mem.byteAt s.sp.toNat) h, sp := s.sp + 1, pc := s.pc + 2 }) ∧
    (8 ≤ reg.toNat → exec (.pop reg) s = .next (stopped s (.outOfRange .registerIndex reg.toNat))) ∧
    (reg.toNat < 8 → 256 ≤ s.sp.toNat →
      exec (.pop reg) s = .next (stopped s (.outOfRange .stackRead s.sp.toNat))) ∧
    (bytesAtPc s [0x46, reg] → step s = exec (.pop reg) s) ∧
    (s.pc = 255 → opcodeAt s = 0x46 → step s = .next (stopped s (.outOfRange .operandFetch 256)))

/-- R151: PUSH writes the register to the cell at `sp - 1` and no other byte of memory, moves `sp` down by one and changes
nothing else but `pc`; the register index is checked before the stack address. -/
def Obligations.PushWritesTheNewTopOfStack : Prop :=
  ∀ (s : State) (reg : Byte), s.status = .running →
    (∀ h : reg.toNat < 8, 1 ≤ s.sp.toNat → s.sp.toNat ≤ 256 →
      ∃ t : State, exec (.push reg) s = .next t ∧
        t.sp = s.sp - 1 ∧ t.x = s.x ∧ t.pc = s.pc + 2 ∧ t.fl = s.fl ∧ t.status = .running ∧ t.out = s.out ∧
        ∀ a : Nat, t.mem.byteAt a = if (a : Int) = (s.sp.toNat : Int) - 1 then s.x[reg.toNat]'h else s.mem.byteAt a) ∧
    (8 ≤ reg.toNat → exec (.push reg) s = .next (stopped s (.outOfRange .registerIndex reg.toNat))) ∧
    (reg.toNat < 8 → s.sp = 0 → exec (.push reg) s = .next (stopped s (.outOfRange .stackWrite (-1)))) ∧
    (bytesAtPc s [0x45, reg] → step s = exec (.push reg) s) ∧
    (s.pc = 255 → opcodeAt s = 0x45 → step s = .next (stopped s (.outOfRange .operandFetch 256)))

/-- R131: the alu's product of two unsigned bytes, modulo 256, always supported. -/
def Obligations.AluMultipliesModulo256 : Prop :=
  ∀ p q : Byte, (alu .mul p q).y.toNat = p.toNat * q.toNat % 256 ∧ (alu .mul p q).supported = true

/-- R24: on a Running machine a register index of 8 to 255 in any register operand faults with the first such byte, and
nothing is written. -/
def Obligations.RegisterIndexIsTheWholeByte : Prop :=
  ∀ (i : Instr) (s : State) (bad : Byte), s.status = .running → firstBadReg i = some bad →
    exec i s = .next (stopped s (.outOfRange .registerIndex bad.toNat))

/-- R24, R86, R87: on a Running machine every instruction with legal register indices and its stack address in range completes:
it answers a next state that has not faulted. -/
def Obligations.LegalInstructionsComplete : Prop :=
  ∀ (i : Instr) (s : State), s.status = .running → firstBadReg i = none → stackInRange s i →
    ∃ t : State, exec i s = .next t ∧ t.hasFaulted = false

/-! ### Faults -/

/-- R175: a faulting step commits nothing: the state is as it was but for the status, and the record's `pc` is the
machine's. -/
def Obligations.FaultsArePreciseAndAtomic : Prop :=
  ∀ (s t : State) (r : FaultRecord), step s = .next t → t.status = .faulted r →
    t = { s with status := .faulted r } ∧ r.pc = s.pc

/-- R176: a step reports the first fault of the fixed order and none when no check fails. Of the eight checks the eighth, the
ALU operation, is left out: that it fails for no opcode is R133, which the spec marks as derived. The premise on `sp` is
the invariant of R26 (StepKeepsInvariant). -/
def Obligations.FirstFaultInPriorityOrder : Prop :=
  ∀ s : State, s.status = .running → s.sp.toNat ≤ 256 →
    match firstFault s with
    | some c => step s = .next (stopped s c)
    | none => ∃ t : State, step s = .next t ∧ t.hasFaulted = false

/-- From R131 and R94 (R133 marks it as derived): no step raises UnsupportedOperation. -/
def Obligations.UnsupportedOperationIsUnreachable : Prop :=
  ∀ (s t : State) (r : FaultRecord) (op : AluOp), step s = .next t → t.status = .faulted r →
    r.cause ≠ .unsupportedOperation op

/-! ### Invariants and whole-machine rules -/

/-- The construction state meets the invariant. -/
def Obligations.ConstructionMeetsInvariant : Prop := State.reset.Inv

/-- Every launch state meets the invariant, whatever values the host loads (R190, R201). -/
def Obligations.LaunchMeetsInvariant : Prop := ∀ values : List Nat, (State.launch values).Inv

/-- R25, R26, R172, R174: every step keeps the invariant: memory canonical, `pc` and `sp` from 0 to 256, a fault record
that tells the truth about the state it stands in. -/
def Obligations.StepKeepsInvariant : Prop :=
  ∀ s t : State, s.Inv → step s = .next t → t.Inv

/-- R28: the flag register is 0 at construction, no step changes it, and no step reads it: with another value in it the
machine does the same. Width and construction value are the spec's decision D6. -/
def Obligations.FlagRegisterIsUnused : Prop :=
  State.reset.fl = 0 ∧
  ∀ s t : State, step s = .next t → t.fl = s.fl ∧
    ∀ fl : Byte, ∃ t' : State, step { s with fl := fl } = .next t' ∧ t'.fl = fl ∧
      t'.mem = t.mem ∧ t'.x = t.x ∧ t'.pc = t.pc ∧ t'.sp = t.sp ∧ t'.status = t.status ∧ t'.out = t.out

/-- R22, R26, R30, R41: memory changes only by PUSH, a register only by LOAD_IMMEDIATE, MULTIPLY and POP, and there only
the register operand A names; `sp` changes only by POP and PUSH, the output only by PRINT_REGISTER. -/
def Obligations.EachFieldHasItsWriters : Prop :=
  ∀ s t : State, s.status = .running → step s = .next t →
    (opcodeAt s ≠ 0x45 → t.mem = s.mem) ∧
    (opcodeAt s ∉ [0x82, 0xA2, 0x46] → t.x = s.x) ∧
    (∀ i : Fin 8, i.val ≠ (s.mem.byteAt (s.pc.toNat + 1)).toNat → t.x[i] = s.x[i]) ∧
    (opcodeAt s ∉ [0x46, 0x45] → t.sp = s.sp) ∧
    (opcodeAt s ≠ 0x47 → t.out = s.out)

/-- R30: over any run the output stream only grows at its end, by one value a step at most. -/
def Obligations.OutputOnlyGrows : Prop :=
  ∀ (k : Nat) (s t : State), Sys2Proof.core.run k s = .next t →
    ∃ emitted : List Byte, t.out = s.out ++ emitted ∧ emitted.length ≤ k

/-- From R82, R87, R88 and R92 (R93 marks it as derived): from every state the machine has stopped after 129 steps at
most. -/
def Obligations.EveryRunEndsWithin129Steps : Prop :=
  ∀ s : State, ∃ (k : Nat) (t : State), k ≤ 129 ∧ Sys2Proof.core.run k s = .next t ∧ t.ended = true

/-- From R150 and R151 (R152 marks it as derived): PUSH r and then POP q copies `x[r]` into `x[q]`, leaves the pushed value
in the cell below `sp`, and changes no other byte, register or field but `pc`. -/
def Obligations.PushThenPopCopiesARegister : Prop :=
  ∀ (s : State) (r q : Byte) (hr : r.toNat < 8) (hq : q.toNat < 8), s.status = .running →
    1 ≤ s.sp.toNat → s.sp.toNat ≤ 256 →
    ∃ t u : State, exec (.push r) s = .next t ∧ exec (.pop q) t = .next u ∧
      t.sp.toNat + 1 = s.sp.toNat ∧
      u = { s with mem := u.mem, x := s.x.set q.toNat (s.x[r.toNat]'hr) hq, pc := s.pc + 4 } ∧
      ∀ a : Nat, u.mem.byteAt a = if (a : Int) = (s.sp.toNat : Int) - 1 then s.x[r.toNat]'hr else s.mem.byteAt a

/-- From R150 and R151 (R152 marks it as derived): N PUSHes and then N POPs, of any registers, restore `sp` when they start
from `sp` of N or more. No fault occurs: every one of them executes on a Running machine, the last leaves it Running.
Popping into the same registers in the opposite order restores those too. -/
def Obligations.PushesThenPopsRestoreTheStack : Prop :=
  ∀ (s : State) (pushed popped : List Byte), s.status = .running → (∀ r ∈ pushed, r.toNat < 8) →
    (∀ r ∈ popped, r.toNat < 8) → pushed.length = popped.length → pushed.length ≤ s.sp.toNat → s.sp.toNat ≤ 256 →
    ∃ t : State, execAll (pushed.map .push ++ popped.map .pop) s = some t ∧ t.status = .running ∧ t.sp = s.sp ∧
      (popped = pushed.reverse → t.x = s.x)

/-- From R49 and R81 (R51 marks it as derived): after a PUSH every later fetch, from whatever address, sees the byte it wrote
on each of its three ports, wherever that byte lies, and every other byte as it was; a PUSH that overwrites its own bytes
still runs as it was fetched. -/
def Obligations.FetchSeesTheBytePushed : Prop :=
  ∀ (s : State) (reg : Byte) (h : reg.toNat < 8), s.status = .running → bytesAtPc s [0x45, reg] →
    1 ≤ s.sp.toNat → s.sp.toNat ≤ 256 →
    ∃ t : State, step s = .next t ∧
      t = { s with mem := t.mem, sp := s.sp - 1, pc := s.pc + 2 } ∧
      ∀ p : Ptr, fetchUnit p t.mem =
        { op := portAfterPush s (s.x[reg.toNat]'h) p.toNat
          a := portAfterPush s (s.x[reg.toNat]'h) (p.toNat + 1)
          b := portAfterPush s (s.x[reg.toNat]'h) (p.toNat + 2) }

/-! ### The host's side -/

/-- R190: the launch state is the construction state with the j-th value, truncated to 8 bits, at address j, and 0 in the
cells after them. -/
def Obligations.LaunchHoldsTheImage : Prop :=
  ∀ values : List Nat, values.length ≤ 256 →
    State.launch values = { State.reset with mem := (State.launch values).mem } ∧
    ∀ a : Nat, a < 256 → (State.launch values).mem.byteAt a = BitVec.ofNat 8 (values.getD a 0)

/-- From R73 and R190: a program text of binary literals, blank lines and comments launches the machine with the literals'
values in order; a line without a literal uses no address. That a line ends at the line feed and at no other character, so
that a carriage return inside a comment is comment, is the model's choice (DESIGN CHOICE, unsafe, log 21): R73 is silent. -/
def Obligations.ProgramTextLaunchesItsBytes : Prop :=
  ∀ items : List (Option Nat × Option (List Char)),
    (∀ item ∈ items, ∀ v ∈ item.1, v < 256) → (∀ item ∈ items, ∀ comment ∈ item.2, '\n' ∉ comment) →
    (items.filterMap Prod.fst).length ≤ 256 →
    launchText (items.flatMap textLine) = some (State.launch (items.filterMap Prod.fst))

/-- R191: any number of arguments but one is a usage error (exit code 1, error stream); one file that cannot be opened is
exit code 2 on the standard output stream. -/
def Obligations.HostRefusesABadInvocation : Prop :=
  (∀ args : List (Option (List Char)), args.length ≠ 1 →
    invocationExit (hostInvoke args) = some (1, .standardError)) ∧
  invocationExit (hostInvoke [none]) = some (2, .standardOutput)

/-- R192: each value is rendered as its unsigned decimal digits, without leading zeros, `0` for zero, one line a value in
the order of emission. That a line end is no character here is the model's choice (log 14). -/
def Obligations.OutputIsRenderedInDecimal : Prop :=
  renderLines [] = [] ∧
  (∀ (out : List Byte) (v : Byte), renderLines (out ++ [v]) = renderLines out ++ [renderValue v]) ∧
  ∀ v : Byte, (renderValue v).all Char.isDigit = true ∧ decimalValue (renderValue v) = v.toNat ∧
    (if v = 0 then renderValue v = ['0'] else (renderValue v).head? ≠ some '0')

/-- R193: a Halted run exits with 0, a Faulted run with some nonzero status, whichever the OPEN parameter is. -/
def Obligations.ExitStatusOfARun : Prop :=
  exitStatus .halted = some 0 ∧ exitStatus .running = none ∧
  ∀ r : FaultRecord, ∃ code : Nat, exitStatus (.faulted r) = some code ∧ code ≠ 0

/-- From R192 and R193: a run is not handed over while it is Running, and at its first state that is not Running it is, with that
state, its output as lines on the standard output stream in order, and, when it Faulted, with the offending byte for
UnknownOpcode and with the record for every other cause; a Halted run exits with 0, a Faulted one with a nonzero status.
That the report is this datum alone, without a stream and a text, is the model's choice (log 22). -/
def Obligations.RunIsHandedOverAtItsEnd : Prop :=
  ∀ (k : Nat) (s t : State), Sys2Proof.core.run k s = .next t →
    (t.status = .running → hostRun k s = none) ∧
    ∀ fuel : Nat, t.status ≠ .running → k ≤ fuel → ∃ e : RunEnd,
      hostRun fuel s = some e ∧ e.final = t ∧
      e.printed = t.out.map (fun v => { stream := .standardOutput, text := renderValue v }) ∧
      (t.status = .halted → e.report = none ∧ e.exitCode = 0) ∧
      (∀ (op : Byte) (pc : Ptr), t.status = .faulted { cause := .unknownOpcode op, pc := pc } →
        e.report = some (.offendingByte op)) ∧
      (∀ r : FaultRecord, t.status = .faulted r → (∀ op : Byte, r.cause ≠ .unknownOpcode op) →
        e.report = some (.record r)) ∧
      (∀ r : FaultRecord, t.status = .faulted r → e.exitCode ≠ 0)

/-- From R171 and R193: the first unknown opcode byte a run meets ends it, and the host reports that byte and exits with a
nonzero status. That the report is the byte alone is the model's choice (log 22). -/
def Obligations.UnknownOpcodeIsReportedByItsByte : Prop :=
  ∀ (fuel k : Nat) (s t : State), Sys2Proof.core.run k s = .next t → t.status = .running → t.pc.toNat < 256 →
    opcodeAt t ∉ opcodes → k < fuel →
    ∃ e : RunEnd, hostRun fuel s = some e ∧ e.final = stopped t (.unknownOpcode (opcodeAt t)) ∧
      e.report = some (.offendingByte (opcodeAt t)) ∧ e.exitCode ≠ 0
end

