-- ==== Sys2Proof/Laws/Decode.lean ====
section
/-! SUPPORT. The decoder's lemmas: what it answers for each opcode byte, and once for all what a decoded instruction
says of the bytes it came from. -/

namespace Sys2Proof

@[simp] theorem instructionDecoder_halt :
    instructionDecoder 0x01#8 = some ⟨.halt, 0, false, false, false, none⟩ := rfl
@[simp] theorem instructionDecoder_loadImmediate :
    instructionDecoder 0x82#8 = some ⟨.loadImmediate, 2, true, false, false, none⟩ := rfl
@[simp] theorem instructionDecoder_printRegister :
    instructionDecoder 0x47#8 = some ⟨.printRegister, 1, true, false, false, none⟩ := rfl
@[simp] theorem instructionDecoder_multiply :
    instructionDecoder 0xA2#8 = some ⟨.multiply, 2, true, true, true, some .mul⟩ := rfl
@[simp] theorem instructionDecoder_pop :
    instructionDecoder 0x46#8 = some ⟨.pop, 1, true, false, false, none⟩ := rfl
@[simp] theorem instructionDecoder_push :
    instructionDecoder 0x45#8 = some ⟨.push, 1, true, false, false, none⟩ := rfl

/-- The opcode byte of an instruction (R64). -/
def Instr.opcode : Instr → Byte
  | .halt => 0x01
  | .loadImmediate _ _ => 0x82
  | .printRegister _ => 0x47
  | .multiply _ _ => 0xA2
  | .pop _ => 0x46
  | .push _ => 0x45

/-- A byte that is none of the six opcodes is in no row of the table. -/
theorem instructionDecoder_unknown (op : Byte) (h : op ∉ [0x01, 0x82, 0x47, 0xA2, 0x46, 0x45]) :
    instructionDecoder op = none := by
  have hne : ∀ row ∈ dispatchTable, row.opcode ≠ op := fun row hrow heq => h (by
    subst heq
    revert row
    decide)
  simp only [instructionDecoder, dispatchLookup, Option.map_eq_none_iff, List.find?_eq_none]
  intro row hrow
  simp [hne row hrow]

/-- Everything `decodeFetched` can answer: a failure at the first check that fails, or the instruction whose opcode and
declared operands the fetched bytes are. -/
theorem decodeFetched_cases (f : Fetched) :
    (f.op = none ∧ decodeFetched f = .error .opcodeMissing) ∨
    (∃ op, f.op = some op ∧ op ∉ [0x01, 0x82, 0x47, 0xA2, 0x46, 0x45] ∧ decodeFetched f = .error (.unknownOpcode op)) ∨
    (∃ op ∈ [0x82, 0x47, 0xA2, 0x46, 0x45], f.op = some op ∧ f.a = none ∧ decodeFetched f = .error .operandAMissing) ∨
    (∃ op ∈ [0x82, 0xA2], ∃ a, f.op = some op ∧ f.a = some a ∧ f.b = none ∧
      decodeFetched f = .error .operandBMissing) ∨
    (f.op = some 0x01 ∧ decodeFetched f = .ok .halt) ∨
    (∃ a b, f.op = some 0x82 ∧ f.a = some a ∧ f.b = some b ∧ decodeFetched f = .ok (.loadImmediate a b)) ∨
    (∃ a, f.op = some 0x47 ∧ f.a = some a ∧ decodeFetched f = .ok (.printRegister a)) ∨
    (∃ a b, f.op = some 0xA2 ∧ f.a = some a ∧ f.b = some b ∧ decodeFetched f = .ok (.multiply a b)) ∨
    (∃ a, f.op = some 0x46 ∧ f.a = some a ∧ decodeFetched f = .ok (.pop a)) ∨
    (∃ a, f.op = some 0x45 ∧ f.a = some a ∧ decodeFetched f = .ok (.push a)) := by
  obtain ⟨op, a, b⟩ := f
  cases op with
  | none => simp [decodeFetched]
  | some op =>
    by_cases h : op ∈ [0x01, 0x82, 0x47, 0xA2, 0x46, 0x45]
    · simp only [List.mem_cons, List.not_mem_nil, or_false] at h
      rcases h with rfl | rfl | rfl | rfl | rfl | rfl <;> cases a <;> cases b <;>
        simp [decodeFetched, Kind.build]
    · exact .inr (.inl ⟨op, rfl, h, by simp [decodeFetched, instructionDecoder_unknown op h]⟩)

/-- The encoding begins with the opcode and is as long as the instruction (R60). -/
theorem encode_head (i : Instr) : (encode i).head? = some i.opcode := by cases i <;> rfl

end Sys2Proof
end

