-- ==== Sys2Proof/Laws/HostInterface.lean ====
section
/-! SUPPORT. What the host makes of a state of each status, and of a run, each said once. -/

namespace Sys2Proof.Machine

theorem runEnd_running (s : State) (h : s.status = .running) : runEnd s = none := by simp [runEnd, exitStatus, h]

theorem runEnd_halted (s : State) (h : s.status = .halted) :
    runEnd s = some { final := s, printed := outputLines s.out, report := none, exitCode := 0 } := by
  simp [runEnd, exitStatus, statusReport, h]

theorem runEnd_faulted (s : State) (r : FaultRecord) (h : s.status = .faulted r) :
    runEnd s = some { final := s, printed := outputLines s.out, report := some (faultReport r),
                      exitCode := Config.exitCodeFault } := by
  simp [runEnd, exitStatus, statusReport, h]

/-- From a Running state the run goes on from the next one. -/
theorem hostRun_running (fuel : Nat) (s t : State) (h : s.status = .running) (ht : step s = .next t) :
    hostRun (fuel + 1) s = hostRun fuel t := by
  simp [hostRun, runEnd_running s h, ht]

/-- A state that is not Running is the end, whatever the fuel. -/
theorem hostRun_ended (fuel : Nat) (s : State) (h : s.status ≠ .running) : hostRun fuel s = runEnd s := by
  cases fuel with
  | zero => rfl
  | succ n =>
    cases hst : s.status with
    | running => exact absurd hst h
    | halted => simp [hostRun, runEnd_halted s hst]
    | faulted r => simp [hostRun, runEnd_faulted s r hst]

end Sys2Proof.Machine
end

