-- ==== Sys2Proof/Laws/Memory.lean ====
section
/-! SUPPORT. The laws of memory: what a cell holds after a write, that every operation keeps the canonical form, and that
equal memories are equal data. -/

namespace Sys2Proof.Machine

@[simp] theorem Memory.byteAt_nil (a : Nat) : Memory.byteAt [] a = Config.memFill := rfl

theorem Memory.byteAt_cons (c : Host.Cell) (m : Memory) (a : Nat) :
    Memory.byteAt (c :: m) a = if c.1 = a then c.2 else Memory.byteAt m a := by
  by_cases h : c.1 = a <;> simp [Memory.byteAt, h]

theorem Memory.byteAt_insertCell (c : Host.Cell) (m : Memory) (a : Nat) (fresh : ∀ d ∈ m, d.1 ≠ c.1) :
    Memory.byteAt (Memory.insertCell c m) a = if c.1 = a then c.2 else Memory.byteAt m a := by
  induction m with
  | nil => simp [Memory.insertCell, Memory.byteAt_cons]
  | cons d m ih =>
    have hd : d.1 ≠ c.1 := fresh d (by simp)
    have ih := ih fun e he => fresh e (by simp [he])
    rw [Memory.insertCell]
    split
    · rw [Memory.byteAt_cons]
    · rw [Memory.byteAt_cons, Memory.byteAt_cons, ih]
      split_ifs <;> simp_all

theorem Memory.byteAt_erase (m : Memory) (a b : Nat) :
    Memory.byteAt (m.filter fun c => c.1 != a) b = if a = b then Config.memFill else Memory.byteAt m b := by
  induction m with
  | nil => simp
  | cons c m ih =>
    rw [Memory.byteAt_cons, List.filter_cons]
    by_cases hca : c.1 = a
    · rw [if_neg (by simp [hca]), ih]
      split_ifs <;> simp_all
    · rw [if_pos (by simp [hca]), Memory.byteAt_cons, ih]
      split_ifs <;> simp_all

theorem Memory.setByte_fill (m : Memory) (a : Nat) (v : Byte) (hv : v = Config.memFill) :
    m.setByte a v = m.filter fun c => c.1 != a := if_pos hv

theorem Memory.setByte_insert (m : Memory) (a : Nat) (v : Byte) (hv : v ≠ Config.memFill) :
    m.setByte a v = Memory.insertCell (a, v) (m.filter fun c => c.1 != a) := if_neg hv

/-- A cell read after a write: the written byte at the written address, every other cell as before (R40, R41). -/
theorem Memory.byteAt_setByte (m : Memory) (a b : Nat) (v : Byte) :
    (m.setByte a v).byteAt b = if a = b then v else m.byteAt b := by
  by_cases hv : v = Config.memFill
  · rw [Memory.setByte_fill m a v hv, Memory.byteAt_erase, hv]
  · rw [Memory.setByte_insert m a v hv, Memory.byteAt_insertCell (a, v) _ b (by simp), Memory.byteAt_erase]
    split_ifs <;> rfl

theorem Memory.mem_insertCell (c d : Host.Cell) (m : Memory) :
    d ∈ Memory.insertCell c m ↔ d = c ∨ d ∈ m := by
  induction m with
  | nil => simp [Memory.insertCell]
  | cons e m ih =>
    by_cases h : c.1 < e.1
    · simp [Memory.insertCell, h]
    · simp [Memory.insertCell, h, ih, or_left_comm]

theorem Memory.insertCell_pairwise (c : Host.Cell) (m : Memory) (hm : m.Pairwise fun c d => c.1 < d.1)
    (fresh : ∀ d ∈ m, d.1 ≠ c.1) : (Memory.insertCell c m).Pairwise fun c d => c.1 < d.1 := by
  induction m with
  | nil => simp [Memory.insertCell]
  | cons e m ih =>
    obtain ⟨he, hm⟩ := List.pairwise_cons.mp hm
    have hne : e.1 ≠ c.1 := fresh e (by simp)
    by_cases h : c.1 < e.1
    · simp only [Memory.insertCell, h, if_true]
      refine List.pairwise_cons.mpr ⟨fun d hd => ?_, List.pairwise_cons.mpr ⟨he, hm⟩⟩
      rcases List.mem_cons.mp hd with rfl | hd
      · exact h
      · exact lt_trans h (he d hd)
    · simp only [Memory.insertCell, h, if_false]
      refine List.pairwise_cons.mpr ⟨fun d hd => ?_, ih hm fun d hd => fresh d (by simp [hd])⟩
      rcases (Memory.mem_insertCell c d m).mp hd with rfl | hd
      · omega
      · exact he d hd

theorem Memory.wf_nil : Memory.wf [] := ⟨List.Pairwise.nil, by simp⟩

/-- A write to an address that exists keeps the canonical form. -/
theorem Memory.wf_setByte (m : Memory) (a : Nat) (v : Byte) (ha : a < Config.memSize) (hm : m.wf) :
    (m.setByte a v).wf := by
  have herase : (m.filter fun c => c.1 != a).Pairwise fun c d => c.1 < d.1 := hm.1.filter _
  have hold : ∀ c ∈ m.filter (fun c => c.1 != a), c.1 < Config.memSize ∧ c.2 ≠ Config.memFill :=
    fun c hc => hm.2 c (List.mem_filter.mp hc).1
  by_cases hv : v = Config.memFill
  · rw [Memory.setByte_fill m a v hv]
    exact ⟨herase, hold⟩
  · rw [Memory.setByte_insert m a v hv]
    refine ⟨Memory.insertCell_pairwise (a, v) _ herase (by simp), fun c hc => ?_⟩
    rcases (Memory.mem_insertCell (a, v) c _).mp hc with rfl | hc
    · exact ⟨ha, hv⟩
    · exact hold c hc

/-- Storing consecutive bytes keeps the canonical form, wherever they start. -/
theorem Memory.wf_setBytes (m : Memory) (a : Nat) (vs : List Byte) (hm : m.wf) : (m.setBytes a vs).wf := by
  induction vs generalizing m a with
  | nil => exact hm
  | cons v vs ih =>
    simp only [Memory.setBytes]
    apply ih
    split
    · exact Memory.wf_setByte m a v ‹_› hm
    · exact hm

/-- Storing bytes from `a` upward leaves the cells below `a` alone. -/
theorem Memory.byteAt_setBytes_below (m : Memory) (a b : Nat) (vs : List Byte) (h : b < a) :
    (m.setBytes a vs).byteAt b = m.byteAt b := by
  induction vs generalizing m a with
  | nil => rfl
  | cons v vs ih =>
    rw [Memory.setBytes, ih _ (a + 1) (by omega)]
    split
    · rw [Memory.byteAt_setByte, if_neg (by omega)]
    · rfl

theorem Memory.byteAt_setByte_self (m : Memory) (a : Nat) (v : Byte) : (m.setByte a v).byteAt a = v := by
  simp [Memory.byteAt_setByte]

theorem Memory.byteAt_of_mem (m : Memory) (c : Host.Cell) (hm : m.Pairwise fun c d => c.1 < d.1) (hc : c ∈ m) :
    m.byteAt c.1 = c.2 := by
  induction m with
  | nil => simp at hc
  | cons d m ih =>
    obtain ⟨hd, hm⟩ := List.pairwise_cons.mp hm
    rcases List.mem_cons.mp hc with rfl | hc
    · simp [Memory.byteAt_cons]
    · have : d.1 ≠ c.1 := Nat.ne_of_lt (hd c hc)
      simp [Memory.byteAt_cons, this, ih hm hc]

theorem Memory.mem_of_byteAt (m : Memory) (a : Nat) (h : m.byteAt a ≠ Config.memFill) : (a, m.byteAt a) ∈ m := by
  induction m with
  | nil => simp at h
  | cons d m ih =>
    rw [Memory.byteAt_cons] at h ⊢
    split at h
    · next hd =>
      rw [if_pos hd, ← hd]
      exact List.mem_cons_self
    · next hd =>
      rw [if_neg hd]
      exact List.mem_cons_of_mem _ (ih h)

/-- The canonical form is canonical: two memories in it that hold the same byte in every cell are the same data. -/
theorem Memory.wf_ext (m n : Memory) (hm : m.wf) (hn : n.wf) (h : ∀ a, m.byteAt a = n.byteAt a) : m = n := by
  have mem_iff : ∀ c, c ∈ m ↔ c ∈ n := by
    have one : ∀ (p q : Memory), p.wf → (∀ a, p.byteAt a = q.byteAt a) → ∀ c ∈ p, c ∈ q := by
      intro p q hp hpq c hc
      have hb : q.byteAt c.1 = c.2 := by rw [← hpq, Memory.byteAt_of_mem p c hp.1 hc]
      have := Memory.mem_of_byteAt q c.1 (by rw [hb]; exact (hp.2 c hc).2)
      rwa [hb] at this
    exact fun c => ⟨one m n hm h c, one n m hn (fun a => (h a).symm) c⟩
  have nodup : ∀ p : Memory, p.wf → p.Nodup := fun p hp => hp.1.imp fun hcd heq => by simp [heq] at hcd
  have perm : m.Perm n := (List.perm_ext_iff_of_nodup (nodup m hm) (nodup n hn)).mpr mem_iff
  exact perm.eq_of_pairwise (fun c d _ _ hcd hdc => absurd hcd (by omega)) hm.1 hn.1

end Sys2Proof.Machine
end

