-- ==== Sys2Proof/Laws/State.lean ====
section
/-! SUPPORT. One lemma per field per update of the state: fault entry, commit, placing a fetch word, and launch. -/

namespace Sys2Proof.Machine

@[simp] theorem raiseFault_mem (s : State) (c : Cause) : (raiseFault s c).mem = s.mem := rfl
@[simp] theorem raiseFault_x (s : State) (c : Cause) : (raiseFault s c).x = s.x := rfl
@[simp] theorem raiseFault_pc (s : State) (c : Cause) : (raiseFault s c).pc = s.pc := rfl
@[simp] theorem raiseFault_sp (s : State) (c : Cause) : (raiseFault s c).sp = s.sp := rfl
@[simp] theorem raiseFault_fl (s : State) (c : Cause) : (raiseFault s c).fl = s.fl := rfl
@[simp] theorem raiseFault_out (s : State) (c : Cause) : (raiseFault s c).out = s.out := rfl
@[simp] theorem raiseFault_status (s : State) (c : Cause) :
    (raiseFault s c).status = .faulted { cause := c, pc := s.pc } := rfl

@[simp] theorem commit_pc (s : State) (r : HandlerResult) (w : Writes) :
    (commit s r w).pc = s.pc + BitVec.ofNat 9 (r.operandCount + 1) := rfl
@[simp] theorem commit_status (s : State) (r : HandlerResult) (w : Writes) :
    (commit s r w).status = if r.running then .running else .halted := rfl
@[simp] theorem commit_fl (s : State) (r : HandlerResult) (w : Writes) : (commit s r w).fl = s.fl := rfl
@[simp] theorem commit_sp (s : State) (r : HandlerResult) (w : Writes) : (commit s r w).sp = w.sp.getD s.sp := rfl
@[simp] theorem commit_out (s : State) (r : HandlerResult) (w : Writes) :
    (commit s r w).out = s.out ++ w.out.toList := rfl
@[simp] theorem commit_x (s : State) (r : HandlerResult) (w : Writes) : (commit s r w).x = writeReg s.x w.reg := rfl
@[simp] theorem commit_mem_none (s : State) (r : HandlerResult) (w : Writes) (h : w.mem = none) :
    (commit s r w).mem = s.mem := by simp [commit, h]
@[simp] theorem commit_mem_some (s : State) (r : HandlerResult) (w : Writes) (a : Addr) (v : Byte)
    (h : w.mem = some (a, v)) : (commit s r w).mem = s.mem.setByte a v := by simp [commit, h]

@[simp] theorem writeReg_none (x : RegFile) : writeReg x none = x := rfl
@[simp] theorem writeReg_some (x : RegFile) (i : RegIdx) (v : Byte) : writeReg x (some (i, v)) = x.set i v := rfl

@[simp] theorem withFetchWord_mem (s : State) (n w : Nat) :
    (s.withFetchWord n w).mem = s.mem.setBytes s.pc.toNat (tableBytes n w) := rfl
@[simp] theorem withFetchWord_x (s : State) (n w : Nat) : (s.withFetchWord n w).x = s.x := rfl
@[simp] theorem withFetchWord_pc (s : State) (n w : Nat) : (s.withFetchWord n w).pc = s.pc := rfl
@[simp] theorem withFetchWord_sp (s : State) (n w : Nat) : (s.withFetchWord n w).sp = s.sp := rfl
@[simp] theorem withFetchWord_fl (s : State) (n w : Nat) : (s.withFetchWord n w).fl = s.fl := rfl
@[simp] theorem withFetchWord_status (s : State) (n w : Nat) : (s.withFetchWord n w).status = s.status := rfl
@[simp] theorem withFetchWord_out (s : State) (n w : Nat) : (s.withFetchWord n w).out = s.out := rfl

@[simp] theorem launch_mem (vs : List Nat) :
    (State.launch vs).mem = Memory.setBytes [] 0 (vs.map (BitVec.ofNat 8)) := rfl
@[simp] theorem launch_pc (vs : List Nat) : (State.launch vs).pc = State.reset.pc := rfl
@[simp] theorem launch_status (vs : List Nat) : (State.launch vs).status = .running := rfl

end Sys2Proof.Machine
end

