-- ==== Sys2Proof/Laws/Ops.lean ====
section
/-! SUPPORT. One lemma for each shared operation that says all it can do, and the inversion lemma of `exec`. -/

namespace Sys2Proof.Machine

theorem regOperand_ok (idx : Byte) (h : idx.toNat < 8) : regOperand idx = .ok ⟨idx.toNat, h⟩ := dif_pos h

theorem regOperand_error (idx : Byte) (h : 8 ≤ idx.toNat) :
    regOperand idx = .error (.outOfRange .registerIndex idx.toNat) := dif_neg (Nat.not_lt.mpr h)

theorem checkAddr_ok (kind : RangeKind) (addr : Int) (h0 : 0 ≤ addr) (h1 : addr < 256) :
    checkAddr kind addr = .ok ⟨addr.toNat, show addr.toNat < 256 by omega⟩ := dif_pos ⟨h0, h1⟩

theorem checkAddr_error (kind : RangeKind) (addr : Int) (h : addr < 0 ∨ 256 ≤ addr) :
    checkAddr kind addr = .error (.outOfRange kind addr) :=
  dif_neg fun h' => by
    have h1 : addr < 256 := h'.2
    omega

theorem memRead_eq (kind : RangeKind) (m : Memory) (addr : Int) :
    memRead kind m addr = (checkAddr kind addr).map fun a => m.byteAt a := by
  unfold memRead
  split <;> simp_all [Except.map]

theorem memWrite_eq (kind : RangeKind) (addr : Int) (v : Byte) :
    memWrite kind addr v = (checkAddr kind addr).map fun a => (a, v) := by
  unfold memWrite
  split <;> simp_all [Except.map]

theorem fetchPort_below (m : Memory) (a : Nat) (h : a < 256) : fetchPort m a = some (m.byteAt a) := if_pos h

theorem fetchPort_beyond (m : Memory) (a : Nat) (h : 256 ≤ a) : fetchPort m a = none := if_neg (Nat.not_lt.mpr h)

theorem aluResult_mul (p q : Byte) : aluResult .mul p q = .ok (BitVec.ofNat 8 (p.toNat * q.toNat % 256)) := rfl

@[simp] theorem complete_error (s : State) (c : Cause) : complete s (.error c) = .next (raiseFault s c) := rfl

@[simp] theorem complete_ok (s : State) (r : HandlerResult) (w : Writes) :
    complete s (.ok (r, w)) = .next (commit s r w) := rfl

/-- The end of a step always answers a next state. -/
theorem complete_next (s : State) (h : Handled) : ∃ t, complete s h = .next t := by
  rcases h with c | ⟨r, w⟩
  · exact ⟨_, rfl⟩
  · exact ⟨_, rfl⟩

/-- A running machine's step is its fetch, then the instruction or the fault. -/
theorem step_running (s : State) (h : s.status = .running) :
    step s = match fetchInstr s with
      | .error c => .next (raiseFault s c)
      | .ok i => exec i s := by
  unfold step
  split
  · simp_all
  · simp_all
  · rfl

/-- An answer `next` comes from a running machine only. -/
theorem running_of_step_next (s t : State) (h : step s = .next t) : s.status = .running := by
  unfold step at h
  split at h <;> simp_all

/-- What the handler of `i` raises in `s`, by which check: the register indices in order, then the stack address. -/
inductive Raises (s : State) : Instr → Cause → Prop
  | loadImmediate (reg imm : Byte) (h : 8 ≤ reg.toNat) :
      Raises s (.loadImmediate reg imm) (.outOfRange .registerIndex reg.toNat)
  | printRegister (reg : Byte) (h : 8 ≤ reg.toNat) :
      Raises s (.printRegister reg) (.outOfRange .registerIndex reg.toNat)
  | multiplyA (regA regB : Byte) (h : 8 ≤ regA.toNat) :
      Raises s (.multiply regA regB) (.outOfRange .registerIndex regA.toNat)
  | multiplyB (regA regB : Byte) (ha : regA.toNat < 8) (h : 8 ≤ regB.toNat) :
      Raises s (.multiply regA regB) (.outOfRange .registerIndex regB.toNat)
  | pop (reg : Byte) (h : 8 ≤ reg.toNat) : Raises s (.pop reg) (.outOfRange .registerIndex reg.toNat)
  | popStack (reg : Byte) (h : reg.toNat < 8) (hs : 256 ≤ s.sp.toNat) :
      Raises s (.pop reg) (.outOfRange .stackRead s.sp.toNat)
  | push (reg : Byte) (h : 8 ≤ reg.toNat) : Raises s (.push reg) (.outOfRange .registerIndex reg.toNat)
  | pushStack (reg : Byte) (h : reg.toNat < 8) (hs : s.sp.toNat = 0 ∨ 257 ≤ s.sp.toNat) :
      Raises s (.push reg) (.outOfRange .stackWrite ((s.sp.toNat : Int) - 1))

/-- The address PUSH writes when it is in range. -/
def belowSp (s : State) (hs : s.sp.toNat ≤ 256) : Addr := ⟨s.sp.toNat - 1, show s.sp.toNat - 1 < 256 by omega⟩

/-- What the handler of `i` stages in `s` when it raises nothing. -/
inductive Stages (s : State) : Instr → HandlerResult → Writes → Prop
  | halt : Stages s .halt ⟨0, false⟩ {}
  | loadImmediate (reg imm : Byte) (h : reg.toNat < 8) :
      Stages s (.loadImmediate reg imm) ⟨2, true⟩ { reg := some (⟨reg.toNat, h⟩, imm) }
  | printRegister (reg : Byte) (h : reg.toNat < 8) :
      Stages s (.printRegister reg) ⟨1, true⟩ { out := some (s.x[reg.toNat]'h) }
  | multiply (regA regB : Byte) (ha : regA.toNat < 8) (hb : regB.toNat < 8) :
      Stages s (.multiply regA regB) ⟨2, true⟩ { reg := some (⟨regA.toNat, ha⟩,
        BitVec.ofNat 8 ((s.x[regA.toNat]'ha).toNat * (s.x[regB.toNat]'hb).toNat % 256)) }
  | pop (reg : Byte) (h : reg.toNat < 8) (hs : s.sp.toNat < 256) :
      Stages s (.pop reg) ⟨1, true⟩ { reg := some (⟨reg.toNat, h⟩, s.mem.byteAt s.sp.toNat), sp := some (s.sp + 1) }
  | push (reg : Byte) (h : reg.toNat < 8) (h1 : 1 ≤ s.sp.toNat) (hs : s.sp.toNat ≤ 256) :
      Stages s (.push reg) ⟨1, true⟩ { mem := some (belowSp s hs, s.x[reg.toNat]'h), sp := some (s.sp - 1) }

/-- The register operand of a byte, in one of two ways. -/
theorem regOperand_cases (idx : Byte) :
    (∃ h : idx.toNat < 8, regOperand idx = .ok ⟨idx.toNat, h⟩) ∨
    (8 ≤ idx.toNat ∧ regOperand idx = .error (.outOfRange .registerIndex idx.toNat)) := by
  rcases Nat.lt_or_ge idx.toNat 8 with h | h
  · exact .inl ⟨h, regOperand_ok idx h⟩
  · exact .inr ⟨h, regOperand_error idx h⟩

theorem popAddr_check (s : State) (hs : s.sp.toNat < 256) :
    checkAddr .stackRead (popAddr s) = .ok ⟨s.sp.toNat, hs⟩ :=
  checkAddr_ok .stackRead (popAddr s) (by simp [popAddr]) (by simp only [popAddr]; omega)

theorem popAddr_raise (s : State) (hs : 256 ≤ s.sp.toNat) :
    checkAddr .stackRead (popAddr s) = .error (.outOfRange .stackRead s.sp.toNat) :=
  checkAddr_error .stackRead (popAddr s) (.inr (by simp only [popAddr]; omega))

theorem pushAddr_check (s : State) (h1 : 1 ≤ s.sp.toNat) (hs : s.sp.toNat ≤ 256) :
    checkAddr .stackWrite (pushAddr s) = .ok (belowSp s hs) := by
  rw [checkAddr_ok .stackWrite (pushAddr s) (by simp only [pushAddr]; omega) (by simp only [pushAddr]; omega)]
  simp only [pushAddr, belowSp, Except.ok.injEq, Fin.mk.injEq]
  omega

theorem pushAddr_raise (s : State) (hs : s.sp.toNat = 0 ∨ 257 ≤ s.sp.toNat) :
    checkAddr .stackWrite (pushAddr s) = .error (.outOfRange .stackWrite ((s.sp.toNat : Int) - 1)) :=
  checkAddr_error .stackWrite (pushAddr s) (by simp only [pushAddr]; omega)

theorem handlePop_cases (reg : Byte) (s : State) :
    (∃ c, Raises s (.pop reg) c ∧ handlePop reg s = .error c) ∨
    (∃ r w, Stages s (.pop reg) r w ∧ handlePop reg s = .ok (r, w)) := by
  rcases regOperand_cases reg with ⟨h, e⟩ | ⟨h, e⟩
  · rcases Nat.lt_or_ge s.sp.toNat 256 with hs | hs
    · refine .inr ⟨_, _, .pop reg h hs, ?_⟩
      simp [handlePop, e, memRead_eq, popAddr_check s hs, Except.map, bind, Except.bind, pure, Except.pure]
    · refine .inl ⟨_, .popStack reg h hs, ?_⟩
      simp [handlePop, e, memRead_eq, popAddr_raise s hs, Except.map, bind, Except.bind]
  · exact .inl ⟨_, .pop reg h, by simp [handlePop, e, bind, Except.bind]⟩

theorem handlePush_cases (reg : Byte) (s : State) :
    (∃ c, Raises s (.push reg) c ∧ handlePush reg s = .error c) ∨
    (∃ r w, Stages s (.push reg) r w ∧ handlePush reg s = .ok (r, w)) := by
  rcases regOperand_cases reg with ⟨h, e⟩ | ⟨h, e⟩
  · by_cases hs : 1 ≤ s.sp.toNat ∧ s.sp.toNat ≤ 256
    · refine .inr ⟨_, _, .push reg h hs.1 hs.2, ?_⟩
      simp [handlePush, e, memWrite_eq, pushAddr_check s hs.1 hs.2, Except.map, bind, Except.bind, pure, Except.pure,
        readReg]
    · refine .inl ⟨_, .pushStack reg h (by omega), ?_⟩
      simp [handlePush, e, memWrite_eq, pushAddr_raise s (by omega), Except.map, bind, Except.bind]
  · exact .inl ⟨_, .push reg h, by simp [handlePush, e, bind, Except.bind]⟩

theorem handleMultiply_cases (regA regB : Byte) (s : State) :
    (∃ c, Raises s (.multiply regA regB) c ∧ handleMultiply regA regB s = .error c) ∨
    (∃ r w, Stages s (.multiply regA regB) r w ∧ handleMultiply regA regB s = .ok (r, w)) := by
  rcases regOperand_cases regA with ⟨ha, ea⟩ | ⟨ha, ea⟩
  · rcases regOperand_cases regB with ⟨hb, eb⟩ | ⟨hb, eb⟩
    · refine .inr ⟨_, _, .multiply regA regB ha hb, ?_⟩
      simp [handleMultiply, ea, eb, aluResult_mul, bind, Except.bind, pure, Except.pure, readReg]
    · exact .inl ⟨_, .multiplyB regA regB ha hb, by simp [handleMultiply, ea, eb, bind, Except.bind]⟩
  · exact .inl ⟨_, .multiplyA regA regB ha, by simp [handleMultiply, ea, bind, Except.bind]⟩

/-- Everything `exec` can do: take the fault a check raises, or commit what the handler stages. -/
theorem exec_cases (i : Instr) (s : State) :
    (∃ c, Raises s i c ∧ exec i s = .next (raiseFault s c)) ∨
    (∃ r w, Stages s i r w ∧ exec i s = .next (commit s r w)) := by
  cases i with
  | halt => exact .inr ⟨_, _, .halt, rfl⟩
  | loadImmediate reg imm =>
    rcases regOperand_cases reg with ⟨h, e⟩ | ⟨h, e⟩
    · refine .inr ⟨_, _, .loadImmediate reg imm h, ?_⟩
      simp [exec, execLoadImmediate, handleLoadImmediate, e, bind, Except.bind, pure, Except.pure, immOperand]
    · refine .inl ⟨_, .loadImmediate reg imm h, ?_⟩
      simp [exec, execLoadImmediate, handleLoadImmediate, e, bind, Except.bind]
  | printRegister reg =>
    rcases regOperand_cases reg with ⟨h, e⟩ | ⟨h, e⟩
    · refine .inr ⟨_, _, .printRegister reg h, ?_⟩
      simp [exec, execPrintRegister, handlePrintRegister, e, bind, Except.bind, pure, Except.pure, readReg]
    · refine .inl ⟨_, .printRegister reg h, ?_⟩
      simp [exec, execPrintRegister, handlePrintRegister, e, bind, Except.bind]
  | multiply regA regB =>
    rcases handleMultiply_cases regA regB s with ⟨c, hc, e⟩ | ⟨r, w, hw, e⟩
    · exact .inl ⟨c, hc, by simp [exec, execMultiply, e]⟩
    · exact .inr ⟨r, w, hw, by simp [exec, execMultiply, e]⟩
  | pop reg =>
    rcases handlePop_cases reg s with ⟨c, hc, e⟩ | ⟨r, w, hw, e⟩
    · exact .inl ⟨c, hc, by simp [exec, execPop, e]⟩
    · exact .inr ⟨r, w, hw, by simp [exec, execPop, e]⟩
  | push reg =>
    rcases handlePush_cases reg s with ⟨c, hc, e⟩ | ⟨r, w, hw, e⟩
    · exact .inl ⟨c, hc, by simp [exec, execPush, e]⟩
    · exact .inr ⟨r, w, hw, by simp [exec, execPush, e]⟩

end Sys2Proof.Machine
end

