-- ==== Sys2Proof/Laws/PerInstr.lean ====
section
/-! SUPPORT. Statements made for every instruction as syntax, one lemma per constructor. -/

namespace Sys2Proof.Laws.EncodeLength

/-- The encoding is one opcode byte and the declared operand bytes (30_encoding.md R60, R63): its length is the
instruction's, and the opcode's row of the dispatch table gives that length less one as the operand count. -/
def Statement (i : Instr) : Prop :=
  (encode i).length = i.length ∧
  ((encode i).head?.bind dispatchLookup).map (fun row => (row.kind, row.operandCount + 1)) = some (i.kind, i.length)

theorem halt : Statement .halt := ⟨rfl, rfl⟩
theorem loadImmediate (reg imm : Byte) : Statement (.loadImmediate reg imm) := ⟨rfl, rfl⟩
theorem printRegister (reg : Byte) : Statement (.printRegister reg) := ⟨rfl, rfl⟩
theorem multiply (regA regB : Byte) : Statement (.multiply regA regB) := ⟨rfl, rfl⟩
theorem pop (reg : Byte) : Statement (.pop reg) := ⟨rfl, rfl⟩
theorem push (reg : Byte) : Statement (.push reg) := ⟨rfl, rfl⟩

end Sys2Proof.Laws.EncodeLength
end

