-- ==== Sys2Proof/Laws/Step.lean ====
section
/-! SUPPORT. What a fetch and a step can do, each said once. -/

namespace Sys2Proof.Machine

/-- The declared bytes of `i` stand in memory at the program counter. -/
def Fetches (s : State) (i : Instr) : Prop :=
  s.pc.toNat + i.length ≤ 256 ∧ ∀ (j : Nat) (h : j < (encode i).length), s.mem.byteAt (s.pc.toNat + j) = (encode i)[j]

@[simp] theorem encode_length (i : Instr) : (encode i).length = i.length := by cases i <;> rfl

theorem fetches_halt (s : State) :
    Fetches s .halt ↔ s.pc.toNat + 1 ≤ 256 ∧ s.mem.byteAt s.pc.toNat = 0x01 := by
  simp [Fetches, Instr.length, encode, Config.opHalt]

theorem fetches_loadImmediate (s : State) (a b : Byte) :
    Fetches s (.loadImmediate a b) ↔ s.pc.toNat + 3 ≤ 256 ∧ s.mem.byteAt s.pc.toNat = 0x82 ∧
      s.mem.byteAt (s.pc.toNat + 1) = a ∧ s.mem.byteAt (s.pc.toNat + 2) = b := by
  simp only [Fetches, encode_length, Instr.length]
  refine and_congr_right fun _ => ⟨fun h => ⟨h 0 (by omega), h 1 (by omega), h 2 (by omega)⟩, ?_⟩
  rintro ⟨h0, h1, h2⟩ j hj
  match j, hj with
  | 0, _ => exact h0
  | 1, _ => exact h1
  | 2, _ => exact h2

theorem fetches_multiply (s : State) (a b : Byte) :
    Fetches s (.multiply a b) ↔ s.pc.toNat + 3 ≤ 256 ∧ s.mem.byteAt s.pc.toNat = 0xA2 ∧
      s.mem.byteAt (s.pc.toNat + 1) = a ∧ s.mem.byteAt (s.pc.toNat + 2) = b := by
  simp only [Fetches, encode_length, Instr.length]
  refine and_congr_right fun _ => ⟨fun h => ⟨h 0 (by omega), h 1 (by omega), h 2 (by omega)⟩, ?_⟩
  rintro ⟨h0, h1, h2⟩ j hj
  match j, hj with
  | 0, _ => exact h0
  | 1, _ => exact h1
  | 2, _ => exact h2

theorem fetches_printRegister (s : State) (a : Byte) :
    Fetches s (.printRegister a) ↔ s.pc.toNat + 2 ≤ 256 ∧ s.mem.byteAt s.pc.toNat = 0x47 ∧
      s.mem.byteAt (s.pc.toNat + 1) = a := by
  simp only [Fetches, encode_length, Instr.length]
  refine and_congr_right fun _ => ⟨fun h => ⟨h 0 (by omega), h 1 (by omega)⟩, ?_⟩
  rintro ⟨h0, h1⟩ j hj
  match j, hj with
  | 0, _ => exact h0
  | 1, _ => exact h1

theorem fetches_pop (s : State) (a : Byte) :
    Fetches s (.pop a) ↔ s.pc.toNat + 2 ≤ 256 ∧ s.mem.byteAt s.pc.toNat = 0x46 ∧
      s.mem.byteAt (s.pc.toNat + 1) = a := by
  simp only [Fetches, encode_length, Instr.length]
  refine and_congr_right fun _ => ⟨fun h => ⟨h 0 (by omega), h 1 (by omega)⟩, ?_⟩
  rintro ⟨h0, h1⟩ j hj
  match j, hj with
  | 0, _ => exact h0
  | 1, _ => exact h1

theorem fetches_push (s : State) (a : Byte) :
    Fetches s (.push a) ↔ s.pc.toNat + 2 ≤ 256 ∧ s.mem.byteAt s.pc.toNat = 0x45 ∧
      s.mem.byteAt (s.pc.toNat + 1) = a := by
  simp only [Fetches, encode_length, Instr.length]
  refine and_congr_right fun _ => ⟨fun h => ⟨h 0 (by omega), h 1 (by omega)⟩, ?_⟩
  rintro ⟨h0, h1⟩ j hj
  match j, hj with
  | 0, _ => exact h0
  | 1, _ => exact h1

theorem fetchPort_eq_some (m : Memory) (a : Nat) (v : Byte) :
    fetchPort m a = some v ↔ a < 256 ∧ m.byteAt a = v := by simp [fetchPort]

theorem fetchPort_eq_none (m : Memory) (a : Nat) : fetchPort m a = none ↔ 256 ≤ a := by simp [fetchPort]

/-- Everything a fetch can answer: the first of the checks 1 to 4 of R176 that fails, or the instruction at `pc`. -/
theorem fetchInstr_cases (s : State) :
    (256 ≤ s.pc.toNat ∧ fetchInstr s = .error (.outOfRange .opcodeFetch s.pc.toNat)) ∨
    (s.pc.toNat < 256 ∧ s.mem.byteAt s.pc.toNat ∉ [0x01, 0x82, 0x47, 0xA2, 0x46, 0x45] ∧
      fetchInstr s = .error (.unknownOpcode (s.mem.byteAt s.pc.toNat))) ∨
    (s.pc.toNat = 255 ∧ s.mem.byteAt s.pc.toNat ∈ [0x82, 0x47, 0xA2, 0x46, 0x45] ∧
      fetchInstr s = .error (.outOfRange .operandFetch 256)) ∨
    (s.pc.toNat = 254 ∧ s.mem.byteAt s.pc.toNat ∈ [0x82, 0xA2] ∧
      fetchInstr s = .error (.outOfRange .operandFetch 256)) ∨
    (∃ i, Fetches s i ∧ fetchInstr s = .ok i) := by
  rcases decodeFetched_cases (fetchUnit s.pc s.mem) with ⟨h, e⟩ | ⟨op, h, hn, e⟩ | ⟨op, hm, h, ha, e⟩ |
    ⟨op, hm, a, h, ha, hb, e⟩ | ⟨h, e⟩ | ⟨a, b, h, ha, hb, e⟩ | ⟨a, h, ha, e⟩ | ⟨a, b, h, ha, hb, e⟩ |
    ⟨a, h, ha, e⟩ | ⟨a, h, ha, e⟩ <;>
    simp only [fetchUnit, fetchPort_eq_some, fetchPort_eq_none] at h
  · exact .inl ⟨h, by simp [fetchInstr, e, decodeCause]⟩
  · obtain ⟨h, rfl⟩ := h
    exact .inr (.inl ⟨h, hn, by simp [fetchInstr, e, decodeCause]⟩)
  · obtain ⟨h, rfl⟩ := h
    simp only [fetchUnit, fetchPort_eq_none] at ha
    have hpc : s.pc.toNat = 255 := by omega
    exact .inr (.inr (.inl ⟨hpc, hm, by simp [fetchInstr, e, decodeCause, hpc]⟩))
  · obtain ⟨h, rfl⟩ := h
    simp only [fetchUnit, fetchPort_eq_some, fetchPort_eq_none] at ha hb
    have hpc : s.pc.toNat = 254 := by omega
    exact .inr (.inr (.inr (.inl ⟨hpc, hm, by simp [fetchInstr, e, decodeCause, hpc]⟩)))
  all_goals
    refine .inr (.inr (.inr (.inr ⟨_, ?_, by simp [fetchInstr, e]; rfl⟩)))
    try simp only [fetchUnit, fetchPort_eq_some] at ha
    try simp only [fetchUnit, fetchPort_eq_some] at hb
  · exact (fetches_halt s).mpr ⟨h.1, h.2⟩
  · exact (fetches_loadImmediate s a b).mpr ⟨by omega, h.2, ha.2, hb.2⟩
  · exact (fetches_printRegister s a).mpr ⟨by omega, h.2, ha.2⟩
  · exact (fetches_multiply s a b).mpr ⟨by omega, h.2, ha.2, hb.2⟩
  · exact (fetches_pop s a).mpr ⟨by omega, h.2, ha.2⟩
  · exact (fetches_push s a).mpr ⟨by omega, h.2, ha.2⟩

/-- The byte at the program counter is the opcode of the instruction standing there. -/
theorem opcode_of_fetches (s : State) (i : Instr) (h : Fetches s i) : s.mem.byteAt s.pc.toNat = i.opcode := by
  have := h.2 0 (by cases i <;> simp [encode])
  cases i <;> exact this

/-- The instruction standing at the program counter is the one fetched. -/
theorem fetchInstr_of_fetches (s : State) (i : Instr) (h : Fetches s i) : fetchInstr s = .ok i := by
  cases i with
  | halt =>
    obtain ⟨hp, h0⟩ := (fetches_halt s).mp h
    simp [fetchInstr, decodeFetched, fetchUnit, fetchPort_below, show s.pc.toNat < 256 by omega, h0, Kind.build]
  | loadImmediate a b =>
    obtain ⟨hp, h0, h1, h2⟩ := (fetches_loadImmediate s a b).mp h
    simp [fetchInstr, decodeFetched, fetchUnit, fetchPort_below, show s.pc.toNat < 256 by omega,
      show s.pc.toNat + 1 < 256 by omega, show s.pc.toNat + 2 < 256 by omega, h0, h1, h2, Kind.build]
  | printRegister a =>
    obtain ⟨hp, h0, h1⟩ := (fetches_printRegister s a).mp h
    simp [fetchInstr, decodeFetched, fetchUnit, fetchPort_below, show s.pc.toNat < 256 by omega,
      show s.pc.toNat + 1 < 256 by omega, h0, h1, Kind.build]
  | multiply a b =>
    obtain ⟨hp, h0, h1, h2⟩ := (fetches_multiply s a b).mp h
    simp [fetchInstr, decodeFetched, fetchUnit, fetchPort_below, show s.pc.toNat < 256 by omega,
      show s.pc.toNat + 1 < 256 by omega, show s.pc.toNat + 2 < 256 by omega, h0, h1, h2, Kind.build]
  | pop a =>
    obtain ⟨hp, h0, h1⟩ := (fetches_pop s a).mp h
    simp [fetchInstr, decodeFetched, fetchUnit, fetchPort_below, show s.pc.toNat < 256 by omega,
      show s.pc.toNat + 1 < 256 by omega, h0, h1, Kind.build]
  | push a =>
    obtain ⟨hp, h0, h1⟩ := (fetches_push s a).mp h
    simp [fetchInstr, decodeFetched, fetchUnit, fetchPort_below, show s.pc.toNat < 256 by omega,
      show s.pc.toNat + 1 < 256 by omega, h0, h1, Kind.build]

/-- Everything a step that answers `next` can have done, from a running machine: take a fault of the fetch, take a fault
of the instruction at `pc`, or commit what that instruction stages. -/
theorem step_cases (s t : State) (h : step s = .next t) :
    s.status = .running ∧
    ((∃ c, fetchInstr s = .error c ∧ t = raiseFault s c) ∨
     (∃ i c, Fetches s i ∧ Raises s i c ∧ t = raiseFault s c) ∨
     (∃ i r w, Fetches s i ∧ Stages s i r w ∧ t = commit s r w)) := by
  have hr := running_of_step_next s t h
  refine ⟨hr, ?_⟩
  rw [step_running s hr] at h
  rcases fetchInstr_cases s with ⟨_, e⟩ | ⟨_, _, e⟩ | ⟨_, _, e⟩ | ⟨_, _, e⟩ | ⟨i, hf, e⟩ <;> rw [e] at h
  · exact .inl ⟨_, e, by simpa using h.symm⟩
  · exact .inl ⟨_, e, by simpa using h.symm⟩
  · exact .inl ⟨_, e, by simpa using h.symm⟩
  · exact .inl ⟨_, e, by simpa using h.symm⟩
  · rcases exec_cases i s with ⟨c, hc, e'⟩ | ⟨r, w, hw, e'⟩
    · exact .inr (.inl ⟨i, c, hf, hc, by simpa [e'] using h.symm⟩)
    · exact .inr (.inr ⟨i, r, w, hf, hw, by simpa [e'] using h.symm⟩)

/-- A staged result is the instruction's operand count and, but for HALT, running (R87). -/
theorem result_of_stages (s : State) (i : Instr) (r : HandlerResult) (w : Writes) (h : Stages s i r w) :
    r.operandCount + 1 = i.length ∧ (r.running = true ↔ i ≠ .halt) := by
  cases h <;> simp [Instr.length]

end Sys2Proof.Machine
end

