-- ==== Sys2Proof/Machine/Assembly.lean ====
section
/-! DEFINITION. The assembler spelling of an instruction (30_encoding.md R72, the spec's own decision D17). The binary is
authoritative; nothing here is called by `step`. -/

namespace Sys2Proof.Machine

/-- The mnemonic of the opcode map (R64). -/
def mnemonic : Kind → String
  | .halt => "HALT"
  | .loadImmediate => "LOAD_IMMEDIATE"
  | .printRegister => "PRINT_REGISTER"
  | .multiply => "MULTIPLY"
  | .pop => "POP"
  | .push => "PUSH"

/-- The short forms the spec's examples also use (R72). -/
def shortForm : Kind → String
  | .halt => "HLT"
  | .loadImmediate => "LDI"
  | .printRegister => "PRN"
  | .multiply => "MUL"
  | .pop => "POP"
  | .push => "PUSH"

/-- A number in decimal. -/
def decimal (v : Byte) : List Char := Nat.toDigits 10 v.toNat

/-- A register operand: `R` and its index in decimal (R72). -/
def regName (reg : Byte) : List Char := 'R' :: decimal reg

/-- The operands of an instruction as R72 writes them, each apart. -/
def operandTexts : Instr → List (List Char)
  | .halt => []
  | .loadImmediate reg imm => [regName reg, decimal imm]
  | .printRegister reg => [regName reg]
  | .multiply regA regB => [regName regA, regName regB]
  | .pop reg => [regName reg]
  | .push reg => [regName reg]

/-- An instruction with a given spelling of its name: the name, a space, the operands with a comma and a space between. -/
def spell (name : Kind → String) (i : Instr) : List Char :=
  match operandTexts i with
  | [] => (name i.kind).toList
  | ops => (name i.kind).toList ++ ' ' :: List.intercalate [',', ' '] ops

/-- The instruction in the assembler syntax of R72. -/
def assembly (i : Instr) : List Char := spell mnemonic i

end Sys2Proof.Machine
end

