-- ==== Sys2Proof/Tests/Slice0.lean ====
section
/-! SUPPORT. Tests: expected results are the spec's own vectors (95_test_vectors.md, by number) or hand calculation from
the cited rule; and, for every obligation with hypotheses, a concrete state and operands that meet them, clause by clause. -/

namespace Sys2Proof.Tests

open Sys2Proof Sys2Proof.Machine Sys2Proof.Stated

/-- A construction state with `bytes` in memory from `pc` on, and `pc` and `sp` set. -/
def at' (pc sp : Ptr) (bytes : List Byte) : State :=
  { State.reset with mem := Memory.setBytes [] pc.toNat bytes, pc := pc, sp := sp }

/-- The state a step goes to, where it goes to one. -/
def after (s : State) : Option State :=
  match step s with
  | .next t => some t
  | .fault _ => none
  | .refused _ => none

/-- The status after a step. -/
def statusAfter (s : State) : Option Status := (after s).map State.status

/-- Registers 0 and 1, `pc` after a step. -/
def regsAfter (s : State) : Option (Byte × Byte × Ptr) :=
  (after s).map fun t => (t.x[(0 : Fin 8)], t.x[(1 : Fin 8)], t.pc)

/-- `s` with registers 0 and 1 set. -/
def withRegs (s : State) (a b : Byte) : State := { s with x := (s.x.set 0 a).set 1 b }

/-- A fault of a machine at `pc`. -/
def faultAt (pc : Ptr) (c : Cause) : Option Status := some (.faulted { cause := c, pc := pc })

/-! ### WellFormed: each check refuses an ill-formed instruction (R24, R62) -/

theorem test_wf_refuses_loadImmediate : (Instr.loadImmediate 8 0).wellFormed = false := by decide
theorem test_wf_refuses_printRegister : (Instr.printRegister 8).wellFormed = false := by decide
theorem test_wf_refuses_multiply_a : (Instr.multiply 8 0).wellFormed = false := by decide
theorem test_wf_refuses_multiply_b : (Instr.multiply 0 255).wellFormed = false := by decide
theorem test_wf_refuses_pop : (Instr.pop 9).wellFormed = false := by decide
theorem test_wf_refuses_push : (Instr.push 128).wellFormed = false := by decide
theorem test_wf_accepts_immediate_8 : (Instr.loadImmediate 7 8).wellFormed = true := by decide

/-! ### Decoding of words written out bit by bit from R61 and R64 -/

theorem test_decode_halt : decodeTableWord 8 0b00000001 = some .halt := by decide
theorem test_decode_loadImmediate :
    decodeTableWord 24 0b11001000_00000011_10000010 = some (.loadImmediate 3 200) := by decide
theorem test_decode_printRegister : decodeTableWord 16 0b00000101_01000111 = some (.printRegister 5) := by decide
theorem test_decode_multiply : decodeTableWord 24 0b00000001_00000010_10100010 = some (.multiply 2 1) := by decide
theorem test_decode_pop : decodeTableWord 16 0b00000111_01000110 = some (.pop 7) := by decide
theorem test_decode_push : decodeTableWord 16 0b11111111_01000101 = some (.push 255) := by decide
/-- V4, V5: bytes with an opcode's field pattern, or LS-8's ADD, decode to nothing. -/
theorem test_decode_refuses : decodeTableWord 24 0x80 = none ∧ decodeTableWord 24 0xA0 = none := by decide
theorem test_encode_multiply : encode (.multiply 2 1) = [0xA2, 2, 1] := by decide

/-! ### Fetch, dispatch, PC advance: V1 to V13 -/

theorem test_v1_halt : after (at' 0 244 [0x01]) = some { at' 0 244 [0x01] with pc := 1, status := .halted } := by decide
theorem test_v2_unknown : after (at' 0 244 []) =
    some { at' 0 244 [] with status := .faulted { cause := .unknownOpcode 0, pc := 0 } } := by decide
theorem test_v7_halt_at_255 : (after (at' 255 244 [0x01])).map (fun t => (t.status, t.pc)) =
    some (.halted, 256) := by decide
theorem test_v9_print_at_254 : (after (withRegs (at' 254 244 [0x47, 0]) 9 0)).map (fun t => (t.out, t.pc)) =
    some ([9], 256) := by decide
theorem test_v10 : statusAfter (at' 255 244 [0x47]) = faultAt 255 (.outOfRange .operandFetch 256) := by decide
theorem test_v11 : statusAfter (at' 254 244 [0x82, 0]) = faultAt 254 (.outOfRange .operandFetch 256) := by decide
theorem test_v12 : statusAfter (at' 255 244 [0x82]) = faultAt 255 (.outOfRange .operandFetch 256) := by decide
theorem test_v13 : statusAfter (at' 256 244 []) = faultAt 256 (.outOfRange .opcodeFetch 256) := by decide

/-! ### LOAD_IMMEDIATE: V21, V24; PRINT_REGISTER: V30, V32 -/

theorem test_v21 : (after (at' 0 244 [0x82, 7, 0xFF])).map (fun t => (t.x[(7 : Fin 8)], t.pc)) = some (255, 3) := by
  decide
theorem test_v24 : statusAfter (at' 0 244 [0x82, 0xFF, 0]) = faultAt 0 (.outOfRange .registerIndex 255) := by decide
theorem test_v30 : (after (at' 0 244 [0x47, 5])).map (fun t => (t.out, t.pc)) = some ([0], 2) := by decide
theorem test_v32 : (after (at' 0 244 [0x47, 8])).map (fun t => (t.out, t.status)) =
    some ([], .faulted { cause := .outOfRange .registerIndex 8, pc := 0 }) := by decide

/-! ### MULTIPLY: V42 (wrap), V49 (source is destination); V52 is the order of its checks -/

theorem test_v42 : regsAfter (withRegs (at' 0 244 [0xA2, 0, 1]) 255 255) = some (1, 255, 3) := by decide
theorem test_v49 : regsAfter (withRegs (at' 0 244 [0xA2, 0, 0]) 20 5) = some (144, 5, 3) := by decide
theorem test_v52 : statusAfter (at' 0 244 [0xA2, 8, 9]) = faultAt 0 (.outOfRange .registerIndex 8) := by decide

/-! ### POP and PUSH: V60 to V68 -/

theorem test_v60 : (after (withRegs (at' 0 244 [0x45, 0]) 5 0)).map (fun t => (t.sp, t.mem.byteAt 243, t.pc)) =
    some (243, 5, 2) := by decide
theorem test_v63 : (after { at' 0 255 [0x46, 2] with mem := [(0, 0x46), (1, 2), (255, 77)] }).map
    (fun t => (t.x[(2 : Fin 8)], t.sp)) = some (77, 256) := by decide
theorem test_v64 : statusAfter (at' 0 256 [0x46, 2]) = faultAt 0 (.outOfRange .stackRead 256) := by decide
theorem test_v66 : statusAfter (at' 0 0 [0x45, 3]) = faultAt 0 (.outOfRange .stackWrite (-1)) := by decide
theorem test_v67 : statusAfter (at' 0 0 [0x45, 8]) = faultAt 0 (.outOfRange .registerIndex 8) := by decide
theorem test_v68 : statusAfter (at' 0 256 [0x46, 9]) = faultAt 0 (.outOfRange .registerIndex 9) := by decide

/-! ### Host interface: P1's image, R73, R192, R72 -/

theorem test_p1_text : parseLines (splitLines "10000010# LDI R0,8\n00000000\n\n00001000\n# end\n".toList) =
    some [0x82, 0, 8] := by decide
theorem test_p1_image : (State.launch [0x82, 0, 8]).mem = [(0, 0x82), (2, 8)] := by decide
theorem test_render : renderLines [8, 0, 255] = ["8".toList, "0".toList, "255".toList] := by decide
/-- R192, R193: a Halted run's output is printed on standard output, and a run into zero-filled memory reports the byte 0. -/
theorem test_hostRun_halted : hostRun 2 (withRegs (at' 0 244 [0x47, 0, 0x01]) 72 0) =
    some { final := { withRegs (at' 0 244 [0x47, 0, 0x01]) 72 0 with pc := 3, status := .halted, out := [72] }
           printed := [{ stream := .standardOutput, text := "72".toList }], report := none, exitCode := 0 } := by decide
theorem test_hostRun_unknown : (hostRun 1 (at' 0 244 [])).map RunEnd.report = some (some (.offendingByte 0)) := by decide
theorem test_hostRun_outOfRange : (hostRun 1 (at' 0 0 [0x45, 3])).map RunEnd.report =
    some (some (.record { cause := .outOfRange .stackWrite (-1), pc := 0 })) := by decide
theorem test_assembly : assembly (.multiply 0 1) = "MULTIPLY R0, R1".toList := by decide
theorem test_short_form : spell shortForm (.loadImmediate 0 8) = "LDI R0, 8".toList := by decide

/-- The host's placing of a word: the very next step runs it. -/
theorem test_withFetchWord : (after (State.reset.withFetchWord 16 0x0745)).map (fun t => (t.sp, t.pc)) =
    some (243, 2) := by decide

/-! ### Witnesses: concrete states and operands that meet the hypotheses of each obligation -/

theorem witness_AcceptedOpcodeFields : instructionDecoder 0xA2 = some ⟨.multiply, 2, true, true, true, some .mul⟩ := by
  decide
theorem witness_DecodeAndEncodeAgree : decode [0x45, 255, 9] = .ok (.push 255, [9]) := rfl
theorem witness_MemReadChecksItsRange :
    memRead .stackRead [(255, 7)] 255 = .ok 7 ∧ memRead .stackRead [] 0 = .ok 0 ∧
    memRead .stackRead [] 256 = .error (.outOfRange .stackRead 256) ∧
    memRead .stackRead [] (-1) = .error (.outOfRange .stackRead (-1)) := ⟨rfl, rfl, rfl, rfl⟩
theorem witness_StepRunsTheDecodedInstruction :
    (at' 254 244 [0x46, 9]).status = .running ∧ decode (memoryFromPc (at' 254 244 [0x46, 9])) = .ok (.pop 9, []) :=
  ⟨rfl, rfl⟩
theorem witness_StoppedMachineHasNoStep :
    ({ State.reset with status := .halted } : State).status ≠ .running ∧
    ({ State.reset with status := .faulted ⟨.unknownOpcode 0, 0⟩ } : State).status ≠ .running := by decide
theorem witness_OpcodeFetchBeyondMemoryFaults : (at' 256 244 []).status = .running ∧ 256 ≤ (at' 256 244 []).pc.toNat := by
  decide
theorem witness_UnknownOpcodeFaults :
    (at' 255 244 [0xFF]).status = .running ∧ (at' 255 244 [0xFF]).pc.toNat < 256 ∧
    opcodeAt (at' 255 244 [0xFF]) ∉ opcodes := by decide
/-- Clause 1 at 255, clause 2 at 254, clause 3 at 253 (two operands), 254 (one) and 255 (none). -/
theorem witness_DeclaredOperandsAreFetched :
    (at' 255 244 [0x47]).status = .running ∧ (at' 255 244 [0x47]).pc.toNat < 256 ∧ opcodeAt (at' 255 244 [0x47]) ∈ opcodes ∧
    1 ≤ operandCountOf (opcodeAt (at' 255 244 [0x47])) ∧ 256 ≤ (at' 255 244 [0x47]).pc.toNat + 1 ∧
    opcodeAt (at' 254 244 [0x82]) ∈ opcodes ∧ operandCountOf (opcodeAt (at' 254 244 [0x82])) = 2 ∧
    (at' 254 244 [0x82]).pc.toNat + 1 < 256 ∧ 256 ≤ (at' 254 244 [0x82]).pc.toNat + 2 ∧
    (at' 253 244 [0x82]).pc.toNat + operandCountOf (opcodeAt (at' 253 244 [0x82])) < 256 ∧
    (at' 254 244 [0x47]).pc.toNat + operandCountOf (opcodeAt (at' 254 244 [0x47])) < 256 ∧
    (at' 255 244 [0x01]).pc.toNat + operandCountOf (opcodeAt (at' 255 244 [0x01])) < 256 := by decide
/-- A PUSH whose undeclared third byte differs. -/
theorem witness_UndeclaredBytesAreNotObserved :
    (at' 0 244 [0x45, 1, 2]).status = .running ∧
    (opcodeAt (at' 0 244 [0x45, 1, 2]) = 0x46 →
      (Memory.setBytes [] 0 [0x45, 1, 99]).byteAt 244 = (at' 0 244 [0x45, 1, 2]).mem.byteAt 244) ∧
    Memory.setBytes [] 0 [0x45, 1, 99] ≠ (at' 0 244 [0x45, 1, 2]).mem ∧
    ∀ j, j ≤ operandCountOf (opcodeAt (at' 0 244 [0x45, 1, 2])) →
      (Memory.setBytes [] 0 [0x45, 1, 99]).byteAt (0 + j) = (at' 0 244 [0x45, 1, 2]).mem.byteAt (0 + j) := by
  refine ⟨rfl, by decide, by decide, fun j hj => ?_⟩
  have hj : j ≤ 1 := hj
  interval_cases j <;> rfl
/-- A POP: the memories differ beyond its operand and agree on the byte at `sp`. -/
theorem witness_UndeclaredBytesAreNotObserved_pop :
    (at' 0 3 [0x46, 1, 2, 7]).status = .running ∧ opcodeAt (at' 0 3 [0x46, 1, 2, 7]) = 0x46 ∧
    (Memory.setBytes [] 0 [0x46, 1, 99, 7]).byteAt 3 = (at' 0 3 [0x46, 1, 2, 7]).mem.byteAt 3 ∧
    Memory.setBytes [] 0 [0x46, 1, 99, 7] ≠ (at' 0 3 [0x46, 1, 2, 7]).mem ∧
    ∀ j, j ≤ operandCountOf (opcodeAt (at' 0 3 [0x46, 1, 2, 7])) →
      (Memory.setBytes [] 0 [0x46, 1, 99, 7]).byteAt (0 + j) = (at' 0 3 [0x46, 1, 2, 7]).mem.byteAt (0 + j) := by
  refine ⟨rfl, by decide, by decide, by decide, fun j hj => ?_⟩
  have hj : j ≤ 1 := hj
  interval_cases j <;> rfl
theorem witness_ProgramCounterAdvance :
    ∃ t, step (at' 253 244 [0x82, 0, 5]) = .next t ∧ t.hasFaulted = false ∧ t.pc = 256 := ⟨_, rfl, by decide, by decide⟩
theorem witness_RunningMachineAlwaysSteps : State.reset.status = .running := rfl
theorem witness_HaltStopsTheRun :
    (at' 255 244 [0x01]).status = .running ∧ bytesAtPc (at' 255 244 [0x01]) [0x01] := by decide
theorem witness_PrintRegisterAppendsItsValue :
    (at' 254 244 [0x47, 7]).status = .running ∧ (7 : Byte).toNat < 8 ∧ 8 ≤ (8 : Byte).toNat ∧
    bytesAtPc (at' 254 244 [0x47, 7]) [0x47, 7] ∧
    (at' 255 244 [0x47]).pc = 255 ∧ opcodeAt (at' 255 244 [0x47]) = 0x47 := by decide
theorem witness_LoadImmediateWritesItsImmediate :
    (at' 253 244 [0x82, 7, 255]).status = .running ∧ (7 : Byte).toNat < 8 ∧ 8 ≤ (8 : Byte).toNat ∧
    bytesAtPc (at' 253 244 [0x82, 7, 255]) [0x82, 7, 255] ∧ (at' 254 244 [0x82]).pc = 254 ∧
    opcodeAt (at' 254 244 [0x82]) = 0x82 ∧ opcodeAt (at' 255 244 [0x82]) = 0x82 := by decide
theorem witness_MultiplyWritesTheProduct :
    (at' 253 244 [0xA2, 7, 8]).status = .running ∧ bytesAtPc (at' 253 244 [0xA2, 7, 8]) [0xA2, 7, 8] ∧
    (7 : Byte).toNat < 8 ∧ 8 ≤ (8 : Byte).toNat ∧
    opcodeAt (at' 254 244 [0xA2]) = 0xA2 ∧ opcodeAt (at' 255 244 [0xA2]) = 0xA2 := by decide
theorem witness_PopReadsTheTopOfStack :
    (at' 254 255 [0x46, 7]).status = .running ∧ (7 : Byte).toNat < 8 ∧ 8 ≤ (8 : Byte).toNat ∧
    (at' 254 255 [0x46, 7]).sp.toNat < 256 ∧ 256 ≤ (at' 254 256 [0x46, 7]).sp.toNat ∧
    bytesAtPc (at' 254 255 [0x46, 7]) [0x46, 7] ∧ opcodeAt (at' 255 244 [0x46]) = 0x46 := by decide
theorem witness_PushWritesTheNewTopOfStack :
    (at' 254 1 [0x45, 7]).status = .running ∧ (7 : Byte).toNat < 8 ∧ 8 ≤ (8 : Byte).toNat ∧
    1 ≤ (at' 254 1 [0x45, 7]).sp.toNat ∧ (at' 254 256 [0x45, 7]).sp.toNat ≤ 256 ∧ (at' 254 0 [0x45, 7]).sp = 0 ∧
    bytesAtPc (at' 254 1 [0x45, 7]) [0x45, 7] ∧ opcodeAt (at' 255 244 [0x45]) = 0x45 := by decide
theorem witness_RegisterIndexIsTheWholeByte :
    State.reset.status = .running ∧ firstBadReg (.push 8) = some 8 ∧ firstBadReg (.multiply 7 255) = some 255 ∧
    firstBadReg (.multiply 8 9) = some 8 ∧ firstBadReg (.loadImmediate 255 0) = some 255 ∧
    firstBadReg (.printRegister 8) = some 8 ∧ firstBadReg (.pop 8) = some 8 := by decide
theorem witness_LegalInstructionsComplete :
    (at' 0 255 []).status = .running ∧ firstBadReg (.pop 7) = none ∧ stackInRange (at' 0 255 []) (.pop 7) ∧ stackInRange (at' 0 1 []) (.push 7) ∧
    stackInRange (at' 0 256 []) (.push 7) ∧ firstBadReg (.multiply 7 7) = none ∧ stackInRange State.reset .halt :=
  ⟨rfl, rfl, by simp [stackInRange, at'], by simp [stackInRange, at'], by simp [stackInRange, at'], rfl, trivial⟩
theorem witness_FaultsArePreciseAndAtomic :
    ∃ t, step (at' 0 0 [0x45, 3]) = .next t ∧ t.status = .faulted ⟨.outOfRange .stackWrite (-1), 0⟩ :=
  ⟨_, rfl, by decide⟩
/-- One state for each check of R176 and one that no check stops. -/
theorem witness_FirstFaultInPriorityOrder :
    ∀ p ∈ [(at' 256 256 [], some (.outOfRange .opcodeFetch 256)),
      (at' 255 256 [0x80], some (.unknownOpcode 0x80)),
      (at' 255 256 [0xA2], some (.outOfRange .operandFetch 256)),
      (at' 254 256 [0xA2, 8], some (.outOfRange .operandFetch 256)),
      (at' 253 256 [0xA2, 8, 9], some (.outOfRange .registerIndex 8)),
      (at' 253 256 [0xA2, 7, 9], some (.outOfRange .registerIndex 9)),
      (at' 254 256 [0x46, 7], some (.outOfRange .stackRead 256)),
      (at' 254 0 [0x45, 7], some (.outOfRange .stackWrite (-1))),
      (at' 254 256 [0x45, 7], none)],
    p.1.status = .running ∧ p.1.sp.toNat ≤ 256 ∧ firstFault p.1 = p.2 := by decide
theorem witness_UnsupportedOperationIsUnreachable :
    ∃ t, step (at' 0 244 []) = .next t ∧ t.status = .faulted ⟨.unknownOpcode 0, 0⟩ := ⟨_, rfl, by decide⟩
theorem witness_StepKeepsInvariant :
    (at' 254 256 [0x45, 7]).Inv ∧ ∃ t, step (at' 254 256 [0x45, 7]) = .next t ∧ t.sp = 255 :=
  ⟨by decide, _, rfl, by decide⟩
theorem witness_FlagRegisterIsUnused : ∃ t, step { at' 0 244 [0x01] with fl := 255 } = .next t ∧ t.fl = 255 :=
  ⟨_, rfl, by decide⟩
theorem witness_EachFieldHasItsWriters :
    (at' 0 244 [0x82, 7, 1]).status = .running ∧ ∃ t, step (at' 0 244 [0x82, 7, 1]) = .next t ∧ t.x[(7 : Fin 8)] = 1 :=
  ⟨rfl, _, rfl, by decide⟩
theorem witness_OutputOnlyGrows : ∃ t, Sys2Proof.core.run 1 (at' 0 244 [0x47, 5]) = .next t ∧ t.out = [0] :=
  ⟨_, rfl, by decide⟩
theorem witness_PushThenPopCopiesARegister :
    (7 : Byte).toNat < 8 ∧ (at' 0 1 []).status = .running ∧ 1 ≤ (at' 0 1 []).sp.toNat ∧ (at' 0 256 []).sp.toNat ≤ 256 := by
  decide
theorem witness_PushesThenPopsRestoreTheStack :
    (at' 0 2 []).status = .running ∧ (∀ r ∈ [(3 : Byte), 7], r.toNat < 8) ∧ [(3 : Byte), 7].length = [(7 : Byte), 3].length ∧
    [(3 : Byte), 7].length ≤ (at' 0 2 []).sp.toNat ∧ (at' 0 2 []).sp.toNat ≤ 256 ∧
    [(7 : Byte), 3] = [(3 : Byte), 7].reverse := by decide
/-- The places P7 writes to: a PUSH at 163 with `sp` so that it writes its own opcode byte (163), its own operand (164) or
the next opcode (165); and at 161 the next instruction's operand (164). -/
theorem witness_FetchSeesTheBytePushed :
    ∀ s ∈ [at' 163 164 [0x45, 0], at' 163 165 [0x45, 0], at' 163 166 [0x45, 0], at' 161 165 [0x45, 0]],
      s.status = .running ∧ bytesAtPc s [0x45, 0] ∧ 1 ≤ s.sp.toNat ∧ s.sp.toNat ≤ 256 := by decide
/-- P7's PUSH 80, at 161: register 0 holds 1 and goes to 164, the operand of the PUSH at 163, which then pushes R1. -/
theorem test_p7_operand_overwritten :
    (after (withRegs (at' 161 165 [0x45, 0, 0x45, 0]) 1 0)).map (fun t => fetchUnit t.pc t.mem) =
      some { op := some 0x45, a := some 1, b := some 0 } := by decide
/-- Executing on stops at a fault: the POP after a faulting PUSH does not execute. -/
theorem test_execAll_stops : execAll [.push 8, .pop 0] (at' 0 244 []) = none ∧
    (execAll [.push 3, .pop 3] (at' 0 1 [])).isSome = true := by decide
theorem witness_LaunchHoldsTheImage : (List.replicate 256 511).length ≤ 256 ∧ [257, 3].length ≤ 256 :=
  ⟨by rw [List.length_replicate], by decide⟩
theorem witness_ProgramTextLaunchesItsBytes :
    let items := [(some 130, some "LDI".toList), (none, none), (some 255, none), (none, some "end".toList)]
    (∀ item ∈ items, ∀ v ∈ item.1, v < 256) ∧ (∀ item ∈ items, ∀ comment ∈ item.2, '\n' ∉ comment) ∧
    (items.filterMap Prod.fst).length ≤ 256 := by decide
theorem witness_HostRefusesABadInvocation : ([] : List (Option (List Char))).length ≠ 1 ∧
    ([none, some []] : List (Option (List Char))).length ≠ 1 := by decide
/-- A run still Running, and one for each way to end: Halted, an unknown opcode, another cause. -/
theorem witness_RunIsHandedOverAtItsEnd :
    (∃ t, Sys2Proof.core.run 1 (at' 0 244 [0x47, 0, 0x01]) = .next t ∧ t.status = .running) ∧
    (∃ t, Sys2Proof.core.run 1 (at' 0 244 [0x01]) = .next t ∧ t.status = .halted) ∧
    (∃ t, Sys2Proof.core.run 1 (at' 0 244 []) = .next t ∧ t.status = .faulted ⟨.unknownOpcode 0, 0⟩) ∧
    (∃ t, Sys2Proof.core.run 1 (at' 256 244 []) = .next t ∧ t.status = .faulted ⟨.outOfRange .opcodeFetch 256, 256⟩) :=
  ⟨⟨_, rfl, by decide⟩, ⟨_, rfl, by decide⟩, ⟨_, rfl, by decide⟩, ⟨_, rfl, by decide⟩⟩
/-- One step to an unknown byte at the last address. -/
theorem witness_UnknownOpcodeIsReportedByItsByte :
    ∃ t, Sys2Proof.core.run 1 (at' 253 244 [0x47, 0, 0xFF]) = .next t ∧ t.status = .running ∧ t.pc.toNat < 256 ∧
      opcodeAt t ∉ opcodes := ⟨_, rfl, by decide, by decide, by decide⟩

end Sys2Proof.Tests
end

section
/-! SUPPORT. The statements about the state (10_state.md): the invariant every step keeps, the registers' legal indices,
the fields each instruction writes, the unused flag register, and the output stream over a run. -/

namespace Sys2Proof.Machine

open Sys2Proof.Stated

/-! ### Which check stops an instruction -/

section

variable {s t : State} {i : Instr} {c : Cause} {r : HandlerResult} {w : Writes}

/-- What raises is the first bad register operand, or the stack address after every register operand passed (R176). -/
theorem Raises.badReg_or_badStack (h : Raises s i c) :
    (∃ bad, firstBadReg i = some bad ∧ c = .outOfRange .registerIndex bad.toNat) ∨
    (firstBadReg i = none ∧ ¬ stackInRange s i) := by
  cases h with
  | loadImmediate | printRegister | multiplyA | pop | push => exact .inl ⟨_, if_pos ‹8 ≤ _›, rfl⟩
  | multiplyB _ _ ha hb => exact .inl ⟨_, (if_neg (Nat.not_le.mpr ha)).trans (if_pos hb), rfl⟩
  | popStack _ hreg hs => exact .inr ⟨if_neg (Nat.not_le.mpr hreg), Nat.not_lt.mpr hs⟩
  | pushStack _ hreg hs => exact .inr ⟨if_neg (Nat.not_le.mpr hreg), fun ⟨h1, h256⟩ => by omega⟩

theorem Stages.firstBadReg_eq_none (h : Stages s i r w) : firstBadReg i = none := by
  cases h with
  | halt => rfl
  | multiply _ _ ha hb => exact (if_neg (Nat.not_le.mpr ha)).trans (if_neg (Nat.not_le.mpr hb))
  | loadImmediate | printRegister | pop | push => exact if_neg (Nat.not_le.mpr ‹_ < 8›)

theorem commit_not_hasFaulted (s : State) (r : HandlerResult) (w : Writes) : (commit s r w).hasFaulted = false := by
  cases hr : r.running <;> simp [State.hasFaulted, hr]

/-! ### The fault record tells the truth -/

theorem ptr_eq_of_toNat {p : Ptr} {n : Nat} (hn : n < 512) (h : p.toNat = n) : p = BitVec.ofNat 9 n :=
  BitVec.eq_of_toNat_eq (by rw [h, BitVec.toNat_ofNat, Nat.mod_eq_of_lt hn])

theorem dispatchLookup_unknown (op : Byte) (h : op ∉ [0x01, 0x82, 0x47, 0xA2, 0x46, 0x45]) :
    dispatchLookup op = none :=
  Option.map_eq_none_iff.mp (instructionDecoder_unknown op h)

/-- R171, R172: the record of a fetch fault. -/
theorem recordTrue_of_fetchInstr_error (hpc : s.pc.toNat ≤ 256)
    (h : fetchInstr s = .error c) : recordTrue s ⟨c, s.pc⟩ = true := by
  rcases fetchInstr_cases s with ⟨hge, e⟩ | ⟨hlt, hop, e⟩ | ⟨heq, _, e⟩ | ⟨heq, _, e⟩ | ⟨i, _, e⟩ <;>
    rw [e] at h <;> cases h
  · have hpc : s.pc = 256 := ptr_eq_of_toNat (by decide) (by omega : s.pc.toNat = 256)
    simp [recordTrue, hpc]
  · simp [recordTrue, fetchPort_below s.mem s.pc.toNat hlt, dispatchLookup_unknown _ hop]
  · have hpc : s.pc = 255 := ptr_eq_of_toNat (by decide) heq
    simp [recordTrue, hpc]
  · have hpc : s.pc = 254 := ptr_eq_of_toNat (by decide) heq
    simp [recordTrue, hpc]

theorem recordTrue_registerIndex (s : State) (reg : Byte) (h : 8 ≤ reg.toNat) :
    recordTrue s ⟨.outOfRange .registerIndex reg.toNat, s.pc⟩ = true := by
  have := reg.isLt
  simp only [recordTrue, beq_self_eq_true, Bool.true_and, decide_eq_true_eq]
  omega

/-- R172: the record of a fault an instruction raises. -/
theorem recordTrue_of_raises (h : Raises s i c) (hsp : s.sp.toNat ≤ 256) :
    recordTrue s ⟨c, s.pc⟩ = true := by
  cases h with
  | popStack reg _ hs =>
    have hsp : s.sp = 256 := ptr_eq_of_toNat (by decide) (by omega : s.sp.toNat = 256)
    simp [recordTrue, hsp]
  | pushStack reg _ hs =>
    have hsp : s.sp = 0 := ptr_eq_of_toNat (by decide) (by omega : s.sp.toNat = 0)
    simp [recordTrue, hsp]
  | loadImmediate | printRegister | multiplyA | multiplyB | pop | push =>
    exact recordTrue_registerIndex s _ ‹8 ≤ _›

/-! ### The invariant -/

/-- Fault entry keeps the invariant where its record tells the truth: `recordTrue` does not read the status. -/
theorem raiseFault_inv (hs : s.Inv) (hc : recordTrue s ⟨c, s.pc⟩ = true) :
    (raiseFault s c).Inv := by
  obtain ⟨hmem, hpc, hsp, _⟩ := hs
  exact ⟨hmem, hpc, hsp, hc⟩

/-- R88: a commit moves `pc` by the instruction's length, exactly. -/
theorem toNat_commit_pc (hf : Fetches s i) (hw : Stages s i r w) : (commit s r w).pc.toNat = s.pc.toNat + i.length := by
  have hbound : s.pc.toNat + i.length ≤ 256 := hf.1
  rw [commit_pc, (result_of_stages s i r w hw).1, BitVec.toNat_add, BitVec.toNat_ofNat]
  omega

theorem commit_mem_wf (hs : s.mem.wf) (r : HandlerResult) (w : Writes) : (commit s r w).mem.wf := by
  cases hw : w.mem with
  | none => rwa [commit_mem_none s r w hw]
  | some p => rw [commit_mem_some s r w p.1 p.2 hw]; exact Memory.wf_setByte s.mem p.1 p.2 p.1.isLt hs

/-- R26: POP raises `sp` from at most 255, PUSH lowers it from at least 1. -/
theorem commit_sp_le (hw : Stages s i r w) (hs : s.sp.toNat ≤ 256) : (commit s r w).sp.toNat ≤ 256 := by
  cases hw with
  | pop reg _ hlt => simp only [commit_sp, Option.getD_some]; bv_omega
  | push reg _ h1 _ => simp only [commit_sp, Option.getD_some]; bv_omega
  | halt | loadImmediate | printRegister | multiply => exact hs

theorem statusTrue_commit (s : State) (r : HandlerResult) (w : Writes) : statusTrue (commit s r w) = true := by
  cases hr : r.running <;> simp [statusTrue, hr]

theorem commit_inv (hs : s.Inv) (hf : Fetches s i) (hw : Stages s i r w) : (commit s r w).Inv := by
  obtain ⟨hmem, _, hsp, _⟩ := hs
  exact ⟨commit_mem_wf hmem r w, (toNat_commit_pc hf hw).trans_le hf.1, commit_sp_le hw hsp, statusTrue_commit s r w⟩

/-! ### Which fields a commit writes -/

theorem Stages.mem_eq_none (h : Stages s i r w) (hop : i.opcode ≠ 0x45) : w.mem = none := by
  cases h with
  | push => exact absurd rfl hop
  | halt | loadImmediate | printRegister | multiply | pop => rfl

theorem Stages.reg_eq_none (h : Stages s i r w) (hop : i.opcode ∉ [0x82, 0xA2, 0x46]) : w.reg = none := by
  cases h with
  | loadImmediate | multiply | pop => simp [Instr.opcode] at hop
  | halt | printRegister | push => rfl

theorem Stages.sp_eq_none (h : Stages s i r w) (hop : i.opcode ∉ [0x46, 0x45]) : w.sp = none := by
  cases h with
  | pop | push => simp [Instr.opcode] at hop
  | halt | loadImmediate | printRegister | multiply => rfl

theorem Stages.out_eq_none (h : Stages s i r w) (hop : i.opcode ≠ 0x47) : w.out = none := by
  cases h with
  | printRegister => exact absurd rfl hop
  | halt | loadImmediate | multiply | pop | push => rfl

/-- The one register an instruction writes is the one its operand A names (R22). -/
theorem Stages.reg_eq_operandA {j : RegIdx} {v : Byte}
    (hf : Fetches s i) (h : Stages s i r w) (hreg : w.reg = some (j, v)) :
    j.val = (s.mem.byteAt (s.pc.toNat + 1)).toNat := by
  cases h with
  | loadImmediate reg imm =>
    obtain ⟨_, _, hA, _⟩ := (fetches_loadImmediate s reg imm).mp hf
    cases hreg; rw [hA]
  | multiply regA regB =>
    obtain ⟨_, _, hA, _⟩ := (fetches_multiply s regA regB).mp hf
    cases hreg; rw [hA]
  | pop reg =>
    obtain ⟨_, _, hA⟩ := (fetches_pop s reg).mp hf
    cases hreg; rw [hA]
  | halt | printRegister | push => cases hreg

theorem getElem_writeReg_of_ne (x : RegFile) (i : RegIdx) {p : Option (RegIdx × Byte)}
    (h : ∀ q ∈ p, q.1 ≠ i) : (writeReg x p)[i] = x[i] := by
  cases p with
  | none => rfl
  | some q =>
    have hne : q.1.val ≠ i.val := fun heq => h q rfl (Fin.ext heq)
    simp [writeReg, hne]

/-! ### The flag register -/

/-- No handler reads `fl`, and a commit and a fault only carry it along. -/
theorem complete_withFl {h : Handled} (fl : Byte) (ht : complete s h = .next t) :
    complete { s with fl := fl } h = .next { t with fl := fl } := by
  rcases h with c | ⟨r, w⟩ <;> cases ht <;> rfl

/-- The handler's answer is the same in both states, by computation. -/
theorem exec_withFl (fl : Byte) (ht : exec i s = .next t) :
    exec i { s with fl := fl } = .next { t with fl := fl } := by
  cases i with
  | halt => exact complete_withFl (h := handleHalt) fl ht
  | loadImmediate reg imm => exact complete_withFl (h := handleLoadImmediate reg imm) fl ht
  | printRegister reg => exact complete_withFl (h := handlePrintRegister reg s) fl ht
  | multiply regA regB => exact complete_withFl (h := handleMultiply regA regB s) fl ht
  | pop reg => exact complete_withFl (h := handlePop reg s) fl ht
  | push reg => exact complete_withFl (h := handlePush reg s) fl ht

theorem step_withFl (fl : Byte) (ht : step s = .next t) :
    step { s with fl := fl } = .next { t with fl := fl } := by
  have hrun := running_of_step_next s t ht
  have hfetch : fetchInstr { s with fl := fl } = fetchInstr s := rfl
  rw [step_running s hrun] at ht
  rw [step_running { s with fl := fl } hrun, hfetch]
  cases hi : fetchInstr s with
  | error c => rw [hi] at ht; cases ht; rfl
  | ok i => rw [hi] at ht; exact exec_withFl fl ht

theorem step_fl (ht : step s = .next t) : t.fl = s.fl := by
  obtain ⟨_, ⟨c, _, rfl⟩ | ⟨i, c, _, _, rfl⟩ | ⟨i, r, w, _, _, rfl⟩⟩ := step_cases s t ht <;> rfl

/-! ### The output stream over a run -/

theorem step_out (ht : step s = .next t) :
    ∃ emitted : List Byte, t.out = s.out ++ emitted ∧ emitted.length ≤ 1 := by
  obtain ⟨_, ⟨c, _, rfl⟩ | ⟨i, c, _, _, rfl⟩ | ⟨i, r, w, _, _, rfl⟩⟩ := step_cases s t ht
  · exact ⟨[], by simp, by simp⟩
  · exact ⟨[], by simp, by simp⟩
  · exact ⟨w.out.toList, rfl, Option.length_toList_le⟩

/-- A run of `k + 1` steps is one step and then a run of `k`. -/
theorem run_succ_eq_next {k : Nat} :
    Sys2Proof.core.run (k + 1) s = .next t ↔ ∃ u, step s = .next u ∧ Sys2Proof.core.run k u = .next t := by
  cases h : step s <;> simp [Host.Core.run, Sys2Proof.core, h]

end

/-! ### The obligations -/

/-- Settles O30: a step takes a fault whose record tells the truth, or commits writes that stay in range. -/
theorem stepKeepsInvariant : Obligations.StepKeepsInvariant := by
  intro s t hs ht
  have ⟨_, hpc, hsp, _⟩ := hs
  obtain ⟨_, ⟨c, hc, rfl⟩ | ⟨i, c, _, hc, rfl⟩ | ⟨i, r, w, hf, hw, rfl⟩⟩ := step_cases s t ht
  · exact raiseFault_inv hs (recordTrue_of_fetchInstr_error hpc hc)
  · exact raiseFault_inv hs (recordTrue_of_raises hc hsp)
  · exact commit_inv hs hf hw

/-- Settles O23: with a bad register operand nothing can be staged, and what is raised names the first such byte. -/
theorem registerIndexIsTheWholeByte : Obligations.RegisterIndexIsTheWholeByte := by
  intro i s bad _ hbad
  rcases exec_cases i s with ⟨c, hc, e⟩ | ⟨r, w, hw, _⟩
  · obtain ⟨bad', hbad', rfl⟩ | ⟨hnone, _⟩ := hc.badReg_or_badStack
    · cases hbad'.symm.trans hbad
      exact e
    · cases hnone.symm.trans hbad
  · cases hw.firstBadReg_eq_none.symm.trans hbad

/-- Settles O24: no check raises, so the handler's writes are committed. -/
theorem legalInstructionsComplete : Obligations.LegalInstructionsComplete := by
  intro i s _ hreg hstack
  rcases exec_cases i s with ⟨c, hc, _⟩ | ⟨r, w, _, e⟩
  · obtain ⟨bad, hbad, _⟩ | ⟨_, hrange⟩ := hc.badReg_or_badStack
    · cases hreg.symm.trans hbad
    · exact absurd hstack hrange
  · exact ⟨_, e, commit_not_hasFaulted s r w⟩

/-- Settles O31: a step commutes with setting the flag register. -/
theorem flagRegisterIsUnused : Obligations.FlagRegisterIsUnused :=
  ⟨rfl, fun _ _ ht => ⟨step_fl ht, fun fl => ⟨_, step_withFl fl ht, rfl, rfl, rfl, rfl, rfl, rfl, rfl⟩⟩⟩

/-- Settles O32: a fault writes no field, and a commit only those its instruction stages. -/
theorem eachFieldHasItsWriters : Obligations.EachFieldHasItsWriters := by
  intro s t _ ht
  obtain ⟨_, ⟨c, _, rfl⟩ | ⟨i, c, _, _, rfl⟩ | ⟨i, r, w, hf, hw, rfl⟩⟩ := step_cases s t ht
  · simp
  · simp
  · simp only [opcodeAt, opcode_of_fetches s i hf]
    refine ⟨fun hop => commit_mem_none s r w (hw.mem_eq_none hop), fun hop => ?_, fun j hj => ?_, fun hop => ?_,
      fun hop => ?_⟩
    · rw [commit_x, hw.reg_eq_none hop, writeReg_none]
    · refine getElem_writeReg_of_ne s.x j fun q hq heq => hj ?_
      rw [← heq]
      exact hw.reg_eq_operandA hf hq
    · rw [commit_sp, hw.sp_eq_none hop, Option.getD_none]
    · simp [hw.out_eq_none hop]

/-- Settles O33, by induction on the number of steps: each appends at most one value. -/
theorem outputOnlyGrows : Obligations.OutputOnlyGrows := by
  intro k
  induction k with
  | zero =>
    intro s t h
    cases h
    exact ⟨[], by simp, by simp⟩
  | succ k ih =>
    intro s t h
    obtain ⟨u, hu, hrun⟩ := run_succ_eq_next.mp h
    obtain ⟨first, hfirst, hlen⟩ := step_out hu
    obtain ⟨rest, hrest, hlen'⟩ := ih u t hrun
    exact ⟨first ++ rest, by rw [hrest, hfirst, List.append_assoc], by rw [List.length_append]; omega⟩

end Sys2Proof.Machine
end

section
/-! SUPPORT. The statements about memory (20_memory.md): a read checks its range, the launch state holds the image, every
fetch sees the byte a PUSH wrote, and the bytes an instruction does not declare are not observed. -/

namespace Sys2Proof.Machine

open Sys2Proof.Stated

/-! ### Reading a cell -/

/-- R40, in range. -/
theorem memRead_ok (kind : RangeKind) (m : Memory) {addr : Int} (h0 : 0 ≤ addr) (h1 : addr < 256) :
    memRead kind m addr = .ok (m.byteAt addr.toNat) := by
  rw [memRead_eq, checkAddr_ok kind addr h0 h1]; rfl

/-- R40, R42, out of range. -/
theorem memRead_error (kind : RangeKind) (m : Memory) {addr : Int} (h : addr < 0 ∨ 256 ≤ addr) :
    memRead kind m addr = .error (.outOfRange kind addr) := by
  rw [memRead_eq, checkAddr_error kind addr h]; rfl

/-- A read depends on no cell but the one it addresses. -/
theorem memRead_congr (kind : RangeKind) {m n : Memory} {addr : Int} (h : m.byteAt addr.toNat = n.byteAt addr.toNat) :
    memRead kind m addr = memRead kind n addr := by
  by_cases hr : 0 ≤ addr ∧ addr < 256
  · rw [memRead_ok kind m hr.1 hr.2, memRead_ok kind n hr.1 hr.2, h]
  · have hr : addr < 0 ∨ 256 ≤ addr := by omega
    rw [memRead_error kind m hr, memRead_error kind n hr]

/-! ### Storing an image -/

/-- A cell from `a` upward after storing `vs` from `a`: the value stored there, or what it held beyond the last one. -/
theorem Memory.byteAt_setBytes (m : Memory) (a : Nat) {b : Nat} (vs : List Byte) (hab : a ≤ b) (hb : b < 256) :
    (m.setBytes a vs).byteAt b = vs[b - a]?.getD (m.byteAt b) := by
  induction vs generalizing m a with
  | nil => rfl
  | cons v vs ih =>
    have ha : a < Config.memSize := hab.trans_lt hb
    rw [Memory.setBytes, if_pos ha]
    rcases hab.eq_or_lt with rfl | hlt
    · rw [Memory.byteAt_setBytes_below _ _ _ _ (Nat.lt_succ_self a), Memory.byteAt_setByte_self]
      simp
    · have hidx : b - a = b - (a + 1) + 1 := by omega
      rw [ih _ (a + 1) hlt, Memory.byteAt_setByte, if_neg hlt.ne, hidx, List.getElem?_cons_succ]

/-! ### What a fetch answers, by where `pc` stands -/

section

variable {s t : State} {i : Instr} {m : Memory}

theorem fetchInstr_opcodeBeyond (h : 256 ≤ s.pc.toNat) :
    fetchInstr s = .error (.outOfRange .opcodeFetch s.pc.toNat) := by
  simp [fetchInstr, fetchUnit, fetchPort_beyond s.mem s.pc.toNat h, decodeFetched, decodeCause]

theorem fetchInstr_unknown (h : s.pc.toNat < 256) (hop : s.mem.byteAt s.pc.toNat ∉ opcodes) :
    fetchInstr s = .error (.unknownOpcode (s.mem.byteAt s.pc.toNat)) := by
  simp [fetchInstr, fetchUnit, fetchPort_below s.mem s.pc.toNat h, decodeFetched, instructionDecoder_unknown _ hop,
    decodeCause]

theorem fetchInstr_operandABeyond (h : s.pc.toNat = 255)
    (hop : s.mem.byteAt s.pc.toNat ∈ [0x82, 0x47, 0xA2, 0x46, 0x45]) :
    fetchInstr s = .error (.outOfRange .operandFetch 256) := by
  rw [h] at hop
  simp only [List.mem_cons, List.not_mem_nil, or_false] at hop
  rcases hop with e | e | e | e | e <;>
    simp [fetchInstr, fetchUnit, fetchPort_below, fetchPort_beyond, decodeFetched, decodeCause, h, e]

theorem fetchInstr_operandBBeyond (h : s.pc.toNat = 254) (hop : s.mem.byteAt s.pc.toNat ∈ [0x82, 0xA2]) :
    fetchInstr s = .error (.outOfRange .operandFetch 256) := by
  rw [h] at hop
  simp only [List.mem_cons, List.not_mem_nil, or_false] at hop
  rcases hop with e | e <;>
    simp [fetchInstr, fetchUnit, fetchPort_below, fetchPort_beyond, decodeFetched, decodeCause, h, e]

/-- What is fetched stands at the program counter. -/
theorem fetches_of_fetchInstr (h : fetchInstr s = .ok i) : Fetches s i := by
  rcases fetchInstr_cases s with ⟨_, e⟩ | ⟨_, _, e⟩ | ⟨_, _, e⟩ | ⟨_, _, e⟩ | ⟨i', hf, e⟩ <;> cases e.symm.trans h
  exact hf

theorem step_of_fetches (hrun : s.status = .running) (h : Fetches s i) : step s = exec i s := by
  rw [step_running s hrun, fetchInstr_of_fetches s i h]

/-! ### Another memory that agrees on the declared bytes -/

theorem operandCountOf_opcode (i : Instr) : operandCountOf i.opcode + 1 = i.length := by cases i <;> rfl

/-- The fetch observes the opcode and the operands it declares, and no other byte. -/
theorem fetchInstr_withMem
    (hm : ∀ j, j ≤ operandCountOf (opcodeAt s) → m.byteAt (s.pc.toNat + j) = s.mem.byteAt (s.pc.toNat + j)) :
    fetchInstr { s with mem := m } = fetchInstr s := by
  have hop : m.byteAt s.pc.toNat = s.mem.byteAt s.pc.toNat := hm 0 (Nat.zero_le _)
  rcases fetchInstr_cases s with ⟨hpc, e⟩ | ⟨hpc, hmem, e⟩ | ⟨hpc, hmem, e⟩ | ⟨hpc, hmem, e⟩ | ⟨i, hf, e⟩ <;> rw [e]
  · exact fetchInstr_opcodeBeyond (s := { s with mem := m }) hpc
  · rw [← hop] at hmem ⊢
    exact fetchInstr_unknown (s := { s with mem := m }) hpc hmem
  · rw [← hop] at hmem
    exact fetchInstr_operandABeyond (s := { s with mem := m }) hpc hmem
  · rw [← hop] at hmem
    exact fetchInstr_operandBBeyond (s := { s with mem := m }) hpc hmem
  · refine fetchInstr_of_fetches { s with mem := m } i ⟨hf.1, fun j hj => (hm j ?_).trans (hf.2 j hj)⟩
    have hcount := operandCountOf_opcode i
    rw [encode_length] at hj
    rw [opcodeAt, opcode_of_fetches s i hf]
    omega

/-- What a step completes to does not depend on the memory it starts from, but for the memory it leaves. -/
theorem complete_withMem {h : Handled} (m : Memory) (ht : complete s h = .next t) :
    ∃ m', complete { s with mem := m } h = .next { t with mem := m' } := by
  rcases h with c | ⟨r, w⟩ <;> cases ht <;> exact ⟨_, rfl⟩

/-- POP reads the byte at `sp` and no other. -/
theorem handlePop_withMem (reg : Byte) (h : m.byteAt s.sp.toNat = s.mem.byteAt s.sp.toNat) :
    handlePop reg { s with mem := m } = handlePop reg s := by
  have hread : memRead .stackRead m (popAddr { s with mem := m }) = memRead .stackRead s.mem (popAddr s) :=
    memRead_congr .stackRead h
  simp only [handlePop, hread]

/-- Only POP's handler reads memory; the other five answer the same by computation. -/
theorem exec_withMem (hpop : i.opcode = 0x46 → m.byteAt s.sp.toNat = s.mem.byteAt s.sp.toNat)
    (ht : exec i s = .next t) : ∃ m', exec i { s with mem := m } = .next { t with mem := m' } := by
  cases i with
  | halt => exact complete_withMem (h := handleHalt) m ht
  | loadImmediate reg imm => exact complete_withMem (h := handleLoadImmediate reg imm) m ht
  | printRegister reg => exact complete_withMem (h := handlePrintRegister reg s) m ht
  | multiply regA regB => exact complete_withMem (h := handleMultiply regA regB s) m ht
  | push reg => exact complete_withMem (h := handlePush reg s) m ht
  | pop reg =>
    have hsame := handlePop_withMem reg (hpop rfl)
    simp only [exec, execPop, hsame]
    exact complete_withMem m ht

theorem step_withMem (hpop : opcodeAt s = 0x46 → m.byteAt s.sp.toNat = s.mem.byteAt s.sp.toNat)
    (hm : ∀ j, j ≤ operandCountOf (opcodeAt s) → m.byteAt (s.pc.toNat + j) = s.mem.byteAt (s.pc.toNat + j))
    (ht : step s = .next t) : ∃ m', step { s with mem := m } = .next { t with mem := m' } := by
  have hrun := running_of_step_next s t ht
  rw [step_running s hrun] at ht
  rw [step_running { s with mem := m } hrun, fetchInstr_withMem hm]
  cases hi : fetchInstr s with
  | error c => rw [hi] at ht; cases ht; exact ⟨m, rfl⟩
  | ok i =>
    rw [hi] at ht
    rw [opcodeAt, opcode_of_fetches s i (fetches_of_fetchInstr hi)] at hpop
    exact exec_withMem hpop ht

theorem exists_exec_next (i : Instr) (s : State) : ∃ t, exec i s = .next t := by
  rcases exec_cases i s with ⟨c, _, e⟩ | ⟨r, w, _, e⟩
  · exact ⟨_, e⟩
  · exact ⟨_, e⟩

theorem exists_step_next (hrun : s.status = .running) : ∃ t, step s = .next t := by
  rw [step_running s hrun]
  cases fetchInstr s with
  | error c => exact ⟨_, rfl⟩
  | ok i => exact exists_exec_next i s

/-! ### A completing PUSH and the fetches after it -/

/-- R151: the whole next state of a PUSH whose register index and stack address are in range. -/
theorem exec_push {reg : Byte} (hrun : s.status = .running) (hreg : reg.toNat < 8) (h1 : 1 ≤ s.sp.toNat)
    (hs : s.sp.toNat ≤ 256) :
    exec (.push reg) s = .next { s with
      mem := s.mem.setByte (s.sp.toNat - 1) (s.x[reg.toNat]'hreg), sp := s.sp - 1, pc := s.pc + 2 } := by
  rcases exec_cases (.push reg) s with ⟨c, hc, _⟩ | ⟨r, w, hw, e⟩
  · cases hc <;> omega
  · cases hw
    simp [e, commit, programCounterAdvance, flagsAfter, belowSp, hrun]

/-- A fetch port reads memory as the write left it, the written cell included (R49, R81). -/
theorem fetchPort_setByte_belowSp (v : Byte) (a : Nat) (h1 : 1 ≤ s.sp.toNat) :
    fetchPort (s.mem.setByte (s.sp.toNat - 1) v) a = portAfterPush s v a := by
  have hcell : s.sp.toNat - 1 = a ↔ (a : Int) = (s.sp.toNat : Int) - 1 := by omega
  simp only [fetchPort, portAfterPush, Memory.byteAt_setByte, hcell, Config.memSize]

end

/-! ### The obligations -/

/-- Settles O6: the range check decides which of the two answers a read gives. -/
theorem memReadChecksItsRange : Obligations.MemReadChecksItsRange :=
  fun kind m _ => ⟨memRead_ok kind m, memRead_error kind m⟩

/-- Settles O38: storing from address 0 puts value `j` in cell `j` and leaves the construction value after the last. -/
theorem launchHoldsTheImage : Obligations.LaunchHoldsTheImage := by
  refine fun values _ => ⟨rfl, fun a ha => ?_⟩
  rw [launch_mem, Memory.byteAt_setBytes [] 0 _ (Nat.zero_le a) ha, Memory.byteAt_nil, Nat.sub_zero,
    List.getElem?_map, List.getD_eq_getElem?_getD]
  cases values[a]? <;> rfl

/-- Settles O37: the PUSH at `pc` completes, and each port reads the memory it left. -/
theorem fetchSeesTheBytePushed : Obligations.FetchSeesTheBytePushed := by
  intro s reg hreg hrun hbytes h1 hs
  have hfetch : Fetches s (.push reg) := by
    obtain ⟨hend, hbytes⟩ := hbytes
    simpa [fetches_push, List.range_succ] using And.intro hend hbytes
  refine ⟨_, (step_of_fetches hrun hfetch).trans (exec_push hrun hreg h1 hs), rfl, fun p => ?_⟩
  simp only [fetchUnit, fetchPort_setByte_belowSp _ _ h1]

/-- Settles O13: the machine with the other memory takes the same step, memory aside. -/
theorem undeclaredBytesAreNotObserved : Obligations.UndeclaredBytesAreNotObserved := by
  intro s m hrun hpop hm
  obtain ⟨t, ht⟩ := exists_step_next hrun
  obtain ⟨m', ht'⟩ := step_withMem hpop hm ht
  exact ⟨t, _, ht, ht', rfl⟩

end Sys2Proof.Machine
end

section
/-! SUPPORT. The statements about the encoding (30_encoding.md): the decoder inverts the encoder, what the opcode map
says of accepted and of refused bytes, and a program text launches the values of its literals. -/

namespace Sys2Proof.Machine

open Sys2Proof.Stated

/-! ### Decoding a list of bytes -/

section

variable {bytes rest : List Byte} {i : Instr} {op : Byte} {d : DecoderOut}

theorem decode_eq_ok :
    decode bytes = .ok (i, rest) ↔
      decodeFetched ⟨bytes[0]?, bytes[1]?, bytes[2]?⟩ = .ok i ∧ bytes.drop i.length = rest := by
  cases h : decodeFetched ⟨bytes[0]?, bytes[1]?, bytes[2]?⟩ with
  | error e => simp [decode, h]
  | ok j => simp +contextual [decode, h]

/-- R60, R61: the bytes after an encoding do not change what it decodes to. -/
theorem decode_encode_append (i : Instr) (rest : List Byte) : decode (encode i ++ rest) = .ok (i, rest) := by
  cases i <;> rfl

/-- R61, R83: the first bytes, as many as the decoded instruction is long, are its encoding. -/
theorem take_length_of_decodeFetched (h : decodeFetched ⟨bytes[0]?, bytes[1]?, bytes[2]?⟩ = .ok i) :
    bytes.take i.length = encode i := by
  rcases decodeFetched_cases ⟨bytes[0]?, bytes[1]?, bytes[2]?⟩ with ⟨_, e⟩ | ⟨_, _, _, e⟩ | ⟨_, _, _, _, e⟩ |
    ⟨_, _, _, _, _, _, e⟩ | ⟨h0, e⟩ | ⟨a, b, h0, h1, h2, e⟩ | ⟨a, h0, h1, e⟩ | ⟨a, b, h0, h1, h2, e⟩ |
    ⟨a, h0, h1, e⟩ | ⟨a, h0, h1, e⟩ <;> cases h.symm.trans e <;> dsimp only at *
  · simp [Instr.length, List.take_add_one, encode, Config.opHalt, h0]
  · simp [Instr.length, List.take_add_one, encode, Config.opLoadImmediate, h0, h1, h2]
  · simp [Instr.length, List.take_add_one, encode, Config.opPrintRegister, h0, h1]
  · simp [Instr.length, List.take_add_one, encode, Config.opMultiply, h0, h1, h2]
  · simp [Instr.length, List.take_add_one, encode, Config.opPop, h0, h1]
  · simp [Instr.length, List.take_add_one, encode, Config.opPush, h0, h1]

/-- R65: a byte outside the opcode map is refused by name, whatever follows it. -/
theorem decode_unknown (rest : List Byte) (h : op ∉ opcodes) : decode (op :: rest) = .error (.unknownOpcode op) := by
  simp [decode, decodeFetched, instructionDecoder_unknown op h]

theorem mem_opcodes_of_instructionDecoder (h : instructionDecoder op = some d) : op ∈ opcodes := by
  by_contra hop
  cases (instructionDecoder_unknown op hop).symm.trans h

end

/-! ### Literals -/

/-- The low `n` binary digits of `v`, most significant first. -/
def binaryDigits : Nat → Nat → List Char
  | 0, _ => []
  | n + 1, v => (if v.testBit n then '1' else '0') :: binaryDigits n v

theorem literal_eq_binaryDigits (v : Nat) : literal v = binaryDigits 8 v := rfl

@[simp] theorem length_binaryDigits (n v : Nat) : (binaryDigits n v).length = n := by
  induction n with
  | zero => rfl
  | succ n ih => rw [binaryDigits, List.length_cons, ih]

/-- The digits hold no `#`, which begins a comment, and no line feed (R73). -/
theorem notMem_binaryDigits (n v : Nat) {c : Char} (h0 : c ≠ '0') (h1 : c ≠ '1') : c ∉ binaryDigits n v := by
  induction n with
  | zero => exact List.not_mem_nil
  | succ n ih =>
    refine List.not_mem_cons_of_ne_of_not_mem ?_ ih
    split
    · exact h1
    · exact h0

theorem pushDigit_digit (u : Nat) (b : Bool) : pushDigit u (if b then '1' else '0') = some (2 * u + b.toNat) := by
  cases b <;> rfl

/-- Reading `n` digits after the value `u` shifts `u` by `n` places and fills them. -/
theorem parseBinary_binaryDigits (n u v : Nat) : parseBinary u (binaryDigits n v) = some (u * 2 ^ n + v % 2 ^ n) := by
  induction n generalizing u with
  | zero => simp [binaryDigits, parseBinary, Nat.mod_one]
  | succ n ih =>
    rw [binaryDigits, parseBinary, pushDigit_digit]
    simp only [ih, Nat.toNat_testBit, Nat.mod_pow_succ, Option.some.injEq]
    ring

/-- R73: a byte's literal stands for its value. -/
theorem parseBinary_literal {v : Nat} (h : v < 256) : parseBinary 0 (literal v) = some v := by
  rw [literal_eq_binaryDigits, parseBinary_binaryDigits, Nat.zero_mul, Nat.zero_add,
    Nat.mod_eq_of_lt (show v < 2 ^ 8 from h)]

/-! ### Lines -/

/-- The line feed closes a line that holds none (R73, log 21). -/
theorem splitLines_append_lineFeed {line : List Char} (rest : List Char) (h : '\n' ∉ line) :
    splitLines (line ++ '\n' :: rest) = line :: splitLines rest := by
  induction line with
  | nil => rfl
  | cons c cs ih =>
    obtain ⟨hc, hcs⟩ := List.ne_and_not_mem_of_not_mem_cons h
    rw [List.cons_append, splitLines, if_neg hc.symm, ih hcs]

section

variable (item : Option Nat × Option (List Char))

/-- The text of a line before its line feed (R73). -/
def lineBody : List Char := item.1.elim [] literal ++ item.2.elim [] ('#' :: ·)

theorem textLine_eq : textLine item = lineBody item ++ ['\n'] := by
  obtain ⟨_ | v, _ | comment⟩ := item <;> rfl

theorem lineFeed_notMem_lineBody (h : ∀ comment ∈ item.2, '\n' ∉ comment) : '\n' ∉ lineBody item := by
  have hliteral : '\n' ∉ item.1.elim [] literal := by
    rcases item.1 with _ | v
    · exact List.not_mem_nil
    · exact notMem_binaryDigits 8 v (by decide) (by decide)
  have hcomment : '\n' ∉ item.2.elim [] ('#' :: ·) := by
    rcases hitem : item.2 with _ | comment
    · exact List.not_mem_nil
    · exact List.not_mem_cons_of_ne_of_not_mem (by decide) (h comment hitem)
  exact List.not_mem_append hliteral hcomment

/-- R73: stripping the comment leaves the literal, or nothing. -/
theorem takeWhile_lineBody : (lineBody item).takeWhile (fun c => c != '#') = item.1.elim [] literal := by
  have hliteral : ∀ c ∈ item.1.elim [] literal, (c != '#') = true := by
    rcases item.1 with _ | v
    · simp
    · intro c hc
      exact bne_iff_ne.mpr fun heq => notMem_binaryDigits 8 v (by decide) (by decide) (heq ▸ hc)
  rw [lineBody, List.takeWhile_append_of_pos hliteral]
  cases item.2 <;> simp

/-- R73: a line is its literal's value, or blank. -/
theorem parseLine_lineBody (h : ∀ v ∈ item.1, v < 256) :
    parseLine (lineBody item) = item.1.elim .blank .value := by
  rw [parseLine, takeWhile_lineBody]
  cases hv : item.1 with
  | none => rfl
  | some v =>
    have hlen : (literal v).length = 8 := length_binaryDigits 8 v
    have hne : literal v ≠ [] := List.ne_nil_of_length_pos (by omega)
    simp [hlen, hne, parseBinary_literal (h v hv)]

end

/-- R73: the lines of a text in the stated format are its literals' values in order; the others use no address. -/
theorem parseLines_splitLines_flatMap_textLine (items : List (Option Nat × Option (List Char)))
    (hv : ∀ item ∈ items, ∀ v ∈ item.1, v < 256) (hc : ∀ item ∈ items, ∀ comment ∈ item.2, '\n' ∉ comment) :
    parseLines (splitLines (items.flatMap textLine)) = some (items.filterMap Prod.fst) := by
  induction items with
  | nil => rfl
  | cons item items ih =>
    obtain ⟨hvItem, hvItems⟩ := List.forall_mem_cons.mp hv
    obtain ⟨hcItem, hcItems⟩ := List.forall_mem_cons.mp hc
    rw [List.flatMap_cons, textLine_eq, List.append_assoc, List.singleton_append,
      splitLines_append_lineFeed _ (lineFeed_notMem_lineBody item hcItem), parseLines, parseLine_lineBody item hvItem,
      ih hvItems hcItems, List.filterMap_cons]
    rcases item.1 with _ | v <;> rfl

/-! ### The obligations -/

/-- Settles O5: the bytes that decode to `i` are the first `i.length`, and those are its encoding. -/
theorem decodeAndEncodeAgree : Obligations.DecodeAndEncodeAgree := by
  refine fun bytes rest i => ⟨fun h => ?_, fun h => h ▸ decode_encode_append i rest⟩
  obtain ⟨hfetched, hrest⟩ := decode_eq_ok.mp h
  rw [← take_length_of_decodeFetched hfetched, ← hrest, List.take_append_drop]

/-- Settles O39: the text is in the stated format and no longer than memory. -/
theorem programTextLaunchesItsBytes : Obligations.ProgramTextLaunchesItsBytes := by
  intro items hv hc hlen
  simp only [launchText, parseLines_splitLines_flatMap_textLine items hv hc]
  exact if_pos hlen

/-- Settles O2: the six words are encodings, and the four bytes are outside the opcode map. -/
theorem writtenOutWordsDecode : Obligations.WrittenOutWordsDecode :=
  ⟨decode_encode_append .halt [], decode_encode_append (.loadImmediate 0 8) [],
    decode_encode_append (.printRegister 2) [], decode_encode_append (.multiply 0 1) [],
    decode_encode_append (.pop 7) [], decode_encode_append (.push 3) [],
    decode_unknown _ (by decide), decode_unknown _ (by decide), decode_unknown _ (by decide),
    decode_unknown _ (by decide)⟩

/-- Settles O4: each of the six opcodes has the three fields. -/
theorem acceptedOpcodeFields : Obligations.AcceptedOpcodeFields := by
  intro op d h
  have hop := mem_opcodes_of_instructionDecoder h
  simp only [List.mem_cons, List.not_mem_nil, or_false] at hop
  rcases hop with rfl | rfl | rfl | rfl | rfl | rfl <;> cases h <;> decide

end Sys2Proof.Machine
end

section
/-! SUPPORT. The statements about fetch, decode and dispatch (40_fetch_decode_dispatch.md): what a fetch answers and the
order of its checks, the step as the decoded instruction or the first fault, and how and when every run ends. -/

namespace Sys2Proof.Machine

open Sys2Proof.Stated

section

variable {s t : State} {i : Instr} {c : Cause} {r : FaultRecord} {k : Nat}

/-! ### The operand counts of R64 -/

theorem one_le_operandCountOf {op : Byte} : 1 ≤ operandCountOf op ↔ op ∈ [0x82, 0x47, 0xA2, 0x46, 0x45] := by
  unfold operandCountOf
  split_ifs <;> simp_all
  tauto

theorem operandCountOf_eq_two {op : Byte} : operandCountOf op = 2 ↔ op ∈ [0x82, 0xA2] := by
  unfold operandCountOf
  split_ifs <;> simp_all

theorem mem_opcodes_of_one_le_operandCountOf {op : Byte} (h : 1 ≤ operandCountOf op) : op ∈ opcodes :=
  List.mem_cons_of_mem _ (one_le_operandCountOf.mp h)

/-! ### The bytes at the program counter -/

/-- The instruction's encoding stands in memory from `pc` on. -/
theorem bytesAtPc_encode_of_fetches (h : Fetches s i) : bytesAtPc s (encode i) := by
  obtain ⟨hend, hbytes⟩ := h
  refine ⟨by rwa [encode_length], List.ext_getElem (by simp) fun j _ hj => ?_⟩
  simpa using hbytes j hj

/-- The bytes of memory from `pc` on, indexed, are what the ports of the fetch unit read (R81). -/
theorem getElem?_memoryFromPc (s : State) (j : Nat) : (memoryFromPc s)[j]? = fetchPort s.mem (s.pc.toNat + j) := by
  rcases Nat.lt_or_ge (s.pc.toNat + j) 256 with h | h
  · rw [fetchPort_below _ _ h, List.getElem?_map, List.getElem?_range (by omega)]
    rfl
  · rw [fetchPort_beyond _ _ h]
    exact List.getElem?_eq_none (by simp; omega)

theorem fetchInstr_eq_ok : fetchInstr s = .ok i ↔ decodeFetched (fetchUnit s.pc s.mem) = .ok i := by
  cases h : decodeFetched (fetchUnit s.pc s.mem) <;> simp [fetchInstr, h]

/-- The step's fetch is the decoder on the bytes of memory from `pc` on (R90). -/
theorem fetchInstr_of_decode {rest : List Byte} (h : decode (memoryFromPc s) = .ok (i, rest)) :
    fetchInstr s = .ok i := by
  obtain ⟨hfetched, _⟩ := decode_eq_ok.mp h
  simp only [getElem?_memoryFromPc] at hfetched
  exact fetchInstr_eq_ok.mpr hfetched

/-! ### The step of a Running machine -/

theorem step_of_fetchInstr_error (hrun : s.status = .running) (h : fetchInstr s = .error c) :
    step s = .next (raiseFault s c) := by
  rw [step_running s hrun, h]

/-- R171: the step of a machine at a byte outside the opcode map. -/
theorem step_unknownOpcode (hrun : s.status = .running) (hpc : s.pc.toNat < 256) (hop : opcodeAt s ∉ opcodes) :
    step s = .next (stopped s (.unknownOpcode (opcodeAt s))) :=
  step_of_fetchInstr_error hrun (fetchInstr_unknown hpc hop)

/-- R83: with every declared operand in memory an instruction stands at a known opcode. -/
theorem exists_fetches (hop : opcodeAt s ∈ opcodes) (hend : s.pc.toNat + operandCountOf (opcodeAt s) < 256) :
    ∃ i, Fetches s i := by
  rcases fetchInstr_cases s with ⟨hpc, _⟩ | ⟨_, hnot, _⟩ | ⟨hpc, hmem, _⟩ | ⟨hpc, hmem, _⟩ | ⟨i, hf, _⟩
  · omega
  · exact absurd hop hnot
  · have : 1 ≤ operandCountOf (opcodeAt s) := one_le_operandCountOf.mpr hmem
    omega
  · have : operandCountOf (opcodeAt s) = 2 := operandCountOf_eq_two.mpr hmem
    omega
  · exact ⟨i, hf⟩

/-! ### The checks of R176 in their order -/

/-- Check 7 of R176: the stack address of POP and of PUSH. -/
def stackFault (s : State) : Instr → Option Cause
  | .pop _ => if 256 ≤ s.sp.toNat then some (.outOfRange .stackRead s.sp.toNat) else none
  | .push _ => if s.sp = 0 then some (.outOfRange .stackWrite (-1)) else none
  | .halt | .loadImmediate _ _ | .printRegister _ | .multiply _ _ => none

/-- Checks 5 to 7 of R176, for a fetched instruction: the register operands in order, then the stack address. -/
def instrFault (s : State) (i : Instr) : Option Cause :=
  match firstBadReg i with
  | some bad => some (.outOfRange .registerIndex bad.toNat)
  | none => stackFault s i

/-- Checks 1 to 4 are the fetch's. -/
theorem firstFault_of_fetchInstr_error (h : fetchInstr s = .error c) : firstFault s = some c := by
  rcases fetchInstr_cases s with ⟨hpc, e⟩ | ⟨hpc, hop, e⟩ | ⟨hpc, hop, e⟩ | ⟨hpc, hop, e⟩ | ⟨i, _, e⟩ <;>
    cases h.symm.trans e
  · exact if_pos hpc
  · exact (if_neg (Nat.not_le.mpr hpc)).trans (if_pos hop)
  · have hcount := one_le_operandCountOf.mpr hop
    have hknown := mem_opcodes_of_one_le_operandCountOf hcount
    simp only [firstFault]
    rw [if_neg (by omega), if_neg (not_not_intro hknown), if_pos (by omega), hpc]
    rfl
  · have hcount := operandCountOf_eq_two.mpr hop
    have hknown := mem_opcodes_of_one_le_operandCountOf (hcount.symm ▸ one_le_two)
    simp only [firstFault]
    rw [if_neg (by omega), if_neg (not_not_intro hknown), if_neg (by omega), if_pos (by omega), hpc]
    rfl

theorem opcode_mem_opcodes (i : Instr) : i.opcode ∈ opcodes := by cases i <;> simp [Instr.opcode]

/-- Past the fetch, the checks left are the instruction's own. -/
theorem firstFault_of_fetches (hf : Fetches s i) : firstFault s = instrFault s i := by
  have hend := hf.1
  have hcount := operandCountOf_opcode i
  have hknown := opcode_mem_opcodes i
  simp only [firstFault, opcode_of_fetches s i hf]
  rw [if_neg (by omega), if_neg (not_not_intro hknown), if_neg (by omega), if_neg (by omega)]
  cases i with
  | halt => simp [Instr.opcode, instrFault, firstBadReg, stackFault]
  | loadImmediate reg _ | printRegister reg | pop reg | push reg =>
    have hA : s.mem.byteAt (s.pc.toNat + 1) = reg := hf.2 1 (by simp [encode])
    simp only [hA, instrFault, firstBadReg, stackFault]
    split_ifs <;> simp_all [Instr.opcode]
  | multiply regA regB =>
    have hA : s.mem.byteAt (s.pc.toNat + 1) = regA := hf.2 1 (by simp [encode])
    have hB : s.mem.byteAt (s.pc.toNat + 2) = regB := hf.2 2 (by simp [encode])
    simp only [hA, hB, instrFault, firstBadReg, stackFault]
    split_ifs <;> simp_all [Instr.opcode]

/-- R176: what an instruction raises is the first of its own checks that fails. -/
theorem Raises.instrFault_eq (h : Raises s i c) (hsp : s.sp.toNat ≤ 256) : instrFault s i = some c := by
  cases h with
  | loadImmediate | printRegister | multiplyA | pop | push => simp [instrFault, firstBadReg, ‹8 ≤ _›]
  | multiplyB _ _ ha hb => simp [instrFault, firstBadReg, Nat.not_le.mpr ha, hb]
  | popStack _ hreg hs => simp [instrFault, firstBadReg, stackFault, Nat.not_le.mpr hreg, hs]
  | pushStack _ hreg hs =>
    have hsp : s.sp = 0 := ptr_eq_of_toNat (by decide) (by omega : s.sp.toNat = 0)
    simp [instrFault, firstBadReg, stackFault, Nat.not_le.mpr hreg, hsp]

theorem Stages.instrFault_eq_none {r : HandlerResult} {w : Writes} (h : Stages s i r w) : instrFault s i = none := by
  simp only [instrFault, h.firstBadReg_eq_none]
  cases h with
  | pop _ _ hs => exact if_neg (Nat.not_le.mpr hs)
  | push _ _ h1 _ => exact if_neg fun h0 => by simp [h0] at h1
  | halt | loadImmediate | printRegister | multiply => rfl

/-! ### What a Faulted state records -/

theorem hasFaulted_of_status (h : t.status = .faulted r) : t.hasFaulted = true := by simp [State.hasFaulted, h]

/-- A step to a Faulted state took a fault of the fetch or of the instruction at `pc`. -/
theorem fault_cases (ht : step s = .next t) (hr : t.status = .faulted r) :
    fetchInstr s = .error r.cause ∨ ∃ i, Fetches s i ∧ Raises s i r.cause := by
  obtain ⟨_, ⟨c, hc, rfl⟩ | ⟨i, c, hf, hc, rfl⟩ | ⟨i, r', w, _, _, rfl⟩⟩ := step_cases s t ht
  · cases hr
    exact .inl hc
  · cases hr
    exact .inr ⟨i, hf, hc⟩
  · cases (commit_not_hasFaulted s r' w).symm.trans (hasFaulted_of_status hr)

theorem ne_unsupportedOperation_of_fetchInstr_error (op : AluOp) (h : fetchInstr s = .error c) :
    c ≠ .unsupportedOperation op := by
  rcases fetchInstr_cases s with ⟨_, e⟩ | ⟨_, _, e⟩ | ⟨_, _, e⟩ | ⟨_, _, e⟩ | ⟨i, _, e⟩ <;>
    cases h.symm.trans e <;> exact Cause.noConfusion

theorem Raises.ne_unsupportedOperation (op : AluOp) (h : Raises s i c) : c ≠ .unsupportedOperation op := by
  cases h <;> exact Cause.noConfusion

/-! ### The end of a run -/

/-- R87, R88: a step stops the machine or moves `pc` on by at least two bytes, and never past 256. -/
theorem ended_or_pc_advances (ht : step s = .next t) :
    t.ended = true ∨ s.pc.toNat + 2 ≤ t.pc.toNat ∧ t.pc.toNat ≤ 256 := by
  obtain ⟨_, ⟨c, _, rfl⟩ | ⟨i, c, _, _, rfl⟩ | ⟨i, r, w, hf, hw, rfl⟩⟩ := step_cases s t ht
  · exact .inl rfl
  · exact .inl rfl
  · have hpc := toNat_commit_pc hf hw
    have hend := hf.1
    cases hw with
    | halt => exact .inl rfl
    | loadImmediate | printRegister | multiply | pop | push =>
      simp only [Instr.length] at hpc hend
      exact .inr (by omega)

theorem ended_of_not_running (h : s.status ≠ .running) : s.ended = true := by
  cases hs : s.status with
  | running => exact absurd hs h
  | halted | faulted => simp [State.ended, hs]

/-- R93: each step that does not end the run uses at least two of the bytes below address 256, and one more step ends it. -/
theorem exists_run_ended (s : State) :
    ∃ (k : Nat) (t : State), k ≤ (256 - s.pc.toNat) / 2 + 1 ∧ Sys2Proof.core.run k s = .next t ∧ t.ended = true := by
  by_cases hrun : s.status = .running
  · obtain ⟨u, hu⟩ := exists_step_next hrun
    obtain hend | ⟨hpc, hle⟩ := ended_or_pc_advances hu
    · exact ⟨1, u, by omega, run_succ_eq_next.mpr ⟨u, hu, rfl⟩, hend⟩
    · obtain ⟨k, t, hk, ht, hend⟩ := exists_run_ended u
      exact ⟨k + 1, t, by omega, run_succ_eq_next.mpr ⟨u, hu, ht⟩, hend⟩
  · exact ⟨0, s, by omega, rfl, ended_of_not_running hrun⟩
termination_by 256 - s.pc.toNat

/-- The host's run passes over every step that answers a next state. -/
theorem hostRun_add_of_run (fuel : Nat) (h : Sys2Proof.core.run k s = .next t) :
    hostRun (fuel + k) s = hostRun fuel t := by
  induction k generalizing s with
  | zero => cases h; rfl
  | succ k ih =>
    obtain ⟨u, hu, hrun⟩ := run_succ_eq_next.mp h
    rw [← Nat.add_assoc, hostRun_running _ s u (running_of_step_next s u hu) hu, ih hrun]

end

/-! ### The obligations -/

/-- Settles O12: outside memory the fetch faults, A before B; inside it an instruction stands at `pc`. -/
theorem declaredOperandsAreFetched : Obligations.DeclaredOperandsAreFetched := by
  intro s hrun hpc hop
  refine ⟨fun hcount hA => ?_, fun hcount hA hB => ?_, fun hend => ?_⟩
  · have hpc : s.pc.toNat = 255 := by omega
    rw [hpc]
    exact step_of_fetchInstr_error hrun (fetchInstr_operandABeyond hpc (one_le_operandCountOf.mp hcount))
  · have hpc : s.pc.toNat = 254 := by omega
    rw [hpc]
    exact step_of_fetchInstr_error hrun (fetchInstr_operandBBeyond hpc (operandCountOf_eq_two.mp hcount))
  · obtain ⟨i, hf⟩ := exists_fetches hop hend
    exact ⟨i, bytesAtPc_encode_of_fetches hf, step_of_fetches hrun hf⟩

/-- Settles O15: fetch faults, the instructions' faults and commits are all next states. -/
theorem runningMachineAlwaysSteps : Obligations.RunningMachineAlwaysSteps := fun _ => exists_step_next

/-- Settles O26: the fetch's checks come first, then those of the instruction it fetched. -/
theorem firstFaultInPriorityOrder : Obligations.FirstFaultInPriorityOrder := by
  intro s hrun hsp
  obtain ⟨t, ht⟩ := exists_step_next hrun
  obtain ⟨_, ⟨c, hc, rfl⟩ | ⟨i, c, hf, hc, rfl⟩ | ⟨i, r, w, hf, hw, rfl⟩⟩ := step_cases s t ht
  · rw [firstFault_of_fetchInstr_error hc]
    exact ht
  · rw [firstFault_of_fetches hf, hc.instrFault_eq hsp]
    exact ht
  · rw [firstFault_of_fetches hf, hw.instrFault_eq_none]
    exact ⟨_, ht, commit_not_hasFaulted s r w⟩

/-- Settles O27: neither a fetch nor an instruction raises it. -/
theorem unsupportedOperationIsUnreachable : Obligations.UnsupportedOperationIsUnreachable := by
  intro s t r op ht hr
  rcases fault_cases ht hr with hfetch | ⟨i, _, hraise⟩
  · exact ne_unsupportedOperation_of_fetchInstr_error op hfetch
  · exact hraise.ne_unsupportedOperation op

/-- Settles O34: at most 256 bytes are left below address 256. -/
theorem everyRunEndsWithin129Steps : Obligations.EveryRunEndsWithin129Steps := by
  intro s
  obtain ⟨k, t, hk, hrun, hend⟩ := exists_run_ended s
  exact ⟨k, t, by omega, hrun, hend⟩

/-- Settles O44: the host's run reaches `t`, takes the fault of its opcode and is handed over there. -/
theorem unknownOpcodeIsReportedByItsByte : Obligations.UnknownOpcodeIsReportedByItsByte := by
  intro fuel k s t hrun hstatus hpc hop hk
  obtain ⟨n, rfl⟩ : ∃ n, fuel = n + 1 + k := ⟨fuel - k - 1, by omega⟩
  have hstep := step_unknownOpcode hstatus hpc hop
  rw [hostRun_add_of_run (n + 1) hrun, hostRun_running n t _ hstatus hstep, hostRun_ended n _ (by simp),
    runEnd_faulted _ _ rfl]
  exact ⟨_, rfl, rfl, rfl, Nat.succ_ne_zero _⟩

/-- Settles O3: a known opcode's row is the table's, and any other byte is in no row. -/
theorem dispatchTableHitsExactlySix : Obligations.DispatchTableHitsExactlySix := by
  intro op
  by_cases hop : op ∈ opcodes
  · simp only [List.mem_cons, List.not_mem_nil, or_false] at hop
    rcases hop with rfl | rfl | rfl | rfl | rfl | rfl <;> rfl
  · rw [dispatchLookup_unknown op hop]
    simp only [List.mem_cons, List.not_mem_nil, or_false, not_or] at hop
    simp only [hop, if_false, Option.map_none]

/-- Settles O7: the three ports are the guarded reads. -/
theorem fetchUnitGuardsEachRead : Obligations.FetchUnitGuardsEachRead := fun _ _ => ⟨rfl, rfl, rfl⟩

/-- Settles O8: the fetch is the decoder on the bytes from `pc` on. -/
theorem stepRunsTheDecodedInstruction : Obligations.StepRunsTheDecodedInstruction :=
  fun _ _ _ hrun hdecode => step_of_fetches hrun (fetches_of_fetchInstr (fetchInstr_of_decode hdecode))

/-- Settles O9: a run of one or more steps begins with one, which only a Running machine takes. -/
theorem stoppedMachineHasNoStep : Obligations.StoppedMachineHasNoStep := by
  intro s hstopped k t hrun
  obtain ⟨u, hu, _⟩ := run_succ_eq_next.mp hrun
  exact hstopped (running_of_step_next s u hu)

/-- Settles O10: the fetch's first check fails. -/
theorem opcodeFetchBeyondMemoryFaults : Obligations.OpcodeFetchBeyondMemoryFaults :=
  fun _ hrun hpc => step_of_fetchInstr_error hrun (fetchInstr_opcodeBeyond hpc)

end Sys2Proof.Machine
end

section
/-! SUPPORT. The statements about control and output (41_control_io.md): an instruction executes from its bytes at `pc`,
and PRINT_REGISTER appends one value to the output. -/

namespace Sys2Proof.Machine

open Sys2Proof.Stated

section

variable {s : State}

theorem fetches_of_bytesAtPc_encode {i : Instr} (h : bytesAtPc s (encode i)) : Fetches s i := by
  obtain ⟨hend, hbytes⟩ := h
  refine ⟨by rwa [encode_length] at hend, fun j hj => ?_⟩
  have hbyte := List.getElem_of_eq hbytes (i := j) (by simpa using hj)
  simpa using hbyte

/-- R111: the whole next state of a PRINT_REGISTER whose register index is in range. -/
theorem exec_printRegister {reg : Byte} (hrun : s.status = .running) (hreg : reg.toNat < 8) :
    exec (.printRegister reg) s = .next { s with out := s.out ++ [s.x[reg.toNat]'hreg], pc := s.pc + 2 } := by
  rcases exec_cases (.printRegister reg) s with ⟨c, hc, _⟩ | ⟨r, w, hw, e⟩
  · cases hc
    omega
  · cases hw
    simp [e, commit, programCounterAdvance, flagsAfter, hrun]

end

/-! ### The obligations -/

/-- Settles O17: the value read is staged for the output and committed; the faults are the register check's and the
fetch's. -/
theorem printRegisterAppendsItsValue : Obligations.PrintRegisterAppendsItsValue := by
  intro s reg hrun
  refine ⟨exec_printRegister hrun, fun hbad => ?_, fun hbytes => ?_, fun hpc hop => ?_⟩
  · exact registerIndexIsTheWholeByte (.printRegister reg) s reg hrun (if_pos hbad)
  · exact step_of_fetches hrun (fetches_of_bytesAtPc_encode hbytes)
  · have hpc : s.pc.toNat = 255 := congrArg BitVec.toNat hpc
    have hmem : opcodeAt s ∈ [0x82, 0x47, 0xA2, 0x46, 0x45] := by simp [hop]
    exact step_of_fetchInstr_error hrun (fetchInstr_operandABeyond hpc hmem)

end Sys2Proof.Machine
end

section
/-! SUPPORT. The statements about the registers and the alu (42_register_alu.md): LOAD_IMMEDIATE and MULTIPLY each write
one register, and the alu multiplies modulo 256. -/

namespace Sys2Proof.Machine

open Sys2Proof.Stated

section

variable {s : State}

/-- The commit of a two-operand handler that stages one register write (R90). -/
theorem commit_reg (hrun : s.status = .running) (i : RegIdx) (v : Byte) :
    commit s ⟨2, true⟩ { reg := some (i, v) } = { s with x := s.x.set i v, pc := s.pc + 3 } := by
  simp [commit, programCounterAdvance, flagsAfter, hrun]

/-- R130: the whole next state of a LOAD_IMMEDIATE whose register index is in range. -/
theorem exec_loadImmediate {reg : Byte} (imm : Byte) (hrun : s.status = .running) (hreg : reg.toNat < 8) :
    exec (.loadImmediate reg imm) s = .next { s with x := s.x.set reg.toNat imm hreg, pc := s.pc + 3 } := by
  rcases exec_cases (.loadImmediate reg imm) s with ⟨c, hc, _⟩ | ⟨r, w, hw, e⟩
  · cases hc
    omega
  · cases hw
    rw [e, commit_reg hrun]

/-- R132: the whole next state of a MULTIPLY whose register indices are in range. -/
theorem exec_multiply {regA regB : Byte} (hrun : s.status = .running) (ha : regA.toNat < 8) (hb : regB.toNat < 8) :
    exec (.multiply regA regB) s = .next { s with
      x := s.x.set regA.toNat (BitVec.ofNat 8 ((s.x[regA.toNat]'ha).toNat * (s.x[regB.toNat]'hb).toNat % 256)) ha
      pc := s.pc + 3 } := by
  rcases exec_cases (.multiply regA regB) s with ⟨c, hc, _⟩ | ⟨r, w, hw, e⟩
  · cases hc <;> omega
  · cases hw
    rw [e, commit_reg hrun]

/-- R83: at 254 operand B of a two-operand instruction is the first beyond memory, at 255 operand A; either is at 256. -/
theorem step_twoOperandsBeyond (hrun : s.status = .running) (hpc : s.pc = 254 ∨ s.pc = 255)
    (hop : opcodeAt s ∈ [0x82, 0xA2]) : step s = .next (stopped s (.outOfRange .operandFetch 256)) := by
  rcases hpc with hpc | hpc
  · exact step_of_fetchInstr_error hrun (fetchInstr_operandBBeyond (congrArg BitVec.toNat hpc) hop)
  · have hmem : opcodeAt s ∈ [0x82, 0x47, 0xA2, 0x46, 0x45] :=
      one_le_operandCountOf.mp (operandCountOf_eq_two.mpr hop ▸ one_le_two)
    exact step_of_fetchInstr_error hrun (fetchInstr_operandABeyond (congrArg BitVec.toNat hpc) hmem)

end

/-! ### The obligations -/

/-- Settles O18: the immediate is staged for the register and committed; the faults are the register check's and the
fetch's. -/
theorem loadImmediateWritesItsImmediate : Obligations.LoadImmediateWritesItsImmediate := by
  intro s reg imm hrun
  refine ⟨exec_loadImmediate imm hrun, fun hbad => ?_, fun hbytes => ?_, fun hpc hop => ?_⟩
  · exact registerIndexIsTheWholeByte (.loadImmediate reg imm) s reg hrun (if_pos hbad)
  · exact step_of_fetches hrun (fetches_of_bytesAtPc_encode hbytes)
  · exact step_twoOperandsBeyond hrun hpc (by simp [hop])

/-- Settles O19: the product of the registers as read is staged and committed; index A's check comes before index B's,
and the fetch's before both. -/
theorem multiplyWritesTheProduct : Obligations.MultiplyWritesTheProduct := by
  intro s regA regB hrun
  refine ⟨exec_multiply hrun, fun hbad => ?_, fun ha hbad => ?_, fun hbytes => ?_, fun hpc hop => ?_⟩
  · exact registerIndexIsTheWholeByte (.multiply regA regB) s regA hrun (if_pos hbad)
  · have hfirst : firstBadReg (.multiply regA regB) = some regB := (if_neg (Nat.not_le.mpr ha)).trans (if_pos hbad)
    exact registerIndexIsTheWholeByte (.multiply regA regB) s regB hrun hfirst
  · exact step_of_fetches hrun (fetches_of_bytesAtPc_encode hbytes)
  · exact step_twoOperandsBeyond hrun hpc (by simp [hop])

/-- Settles O22: a byte holds every number modulo 256. -/
theorem aluMultipliesModulo256 : Obligations.AluMultipliesModulo256 := by
  refine fun p q => ⟨?_, rfl⟩
  have hy : (alu .mul p q).y = BitVec.ofNat 8 (p.toNat * q.toNat % 256) := rfl
  rw [hy, BitVec.toNat_ofNat, Nat.mod_mod]

end Sys2Proof.Machine
end

section
/-! SUPPORT. The statements about the stack (43_stack.md): what POP and PUSH read and write, the order of their checks,
and that POPs take back what PUSHes left. -/

namespace Sys2Proof.Machine

open Sys2Proof.Stated

section

variable {s t : State} {reg : Byte}

/-! ### The cell below `sp` and the moves of `sp` -/

theorem toNat_ptr_sub_one {p : Ptr} (h : 1 ≤ p.toNat) : (p - 1).toNat = p.toNat - 1 := by bv_omega

theorem toNat_ptr_add_one {p : Ptr} (h : p.toNat < 256) : (p + 1).toNat = p.toNat + 1 := by bv_omega

/-- A write below `sp`, with its address computed exactly, as PUSH does (R42, R151). -/
theorem Memory.byteAt_setByte_sub_one (m : Memory) {n : Nat} (v : Byte) (a : Nat) (h : 1 ≤ n) :
    (m.setByte (n - 1) v).byteAt a = if (a : Int) = (n : Int) - 1 then v else m.byteAt a := by
  have hcell : n - 1 = a ↔ (a : Int) = (n : Int) - 1 := by omega
  simp only [Memory.byteAt_setByte, hcell]

/-! ### POP and PUSH, and the faults of their stack addresses -/

/-- R150: the whole next state of a POP whose register index and stack address are in range. -/
theorem exec_pop (hrun : s.status = .running) (hreg : reg.toNat < 8) (hs : s.sp.toNat < 256) :
    exec (.pop reg) s = .next { s with
      x := s.x.set reg.toNat (s.mem.byteAt s.sp.toNat) hreg, sp := s.sp + 1, pc := s.pc + 2 } := by
  rcases exec_cases (.pop reg) s with ⟨c, hc, _⟩ | ⟨r, w, hw, e⟩
  · cases hc <;> omega
  · cases hw
    simp [e, commit, programCounterAdvance, flagsAfter, hrun]

/-- R150: with a legal register index, POP reads beyond memory at `sp` of 256 or more. -/
theorem exec_pop_stackBeyond (hreg : reg.toNat < 8) (hs : 256 ≤ s.sp.toNat) :
    exec (.pop reg) s = .next (stopped s (.outOfRange .stackRead s.sp.toNat)) := by
  rcases exec_cases (.pop reg) s with ⟨c, hc, e⟩ | ⟨r, w, hw, _⟩
  · cases hc with
    | pop => omega
    | popStack => exact e
  · cases hw
    omega

/-- R151: with a legal register index, PUSH at `sp = 0` writes at address -1. -/
theorem exec_push_stackBelow (hreg : reg.toNat < 8) (hs : s.sp = 0) :
    exec (.push reg) s = .next (stopped s (.outOfRange .stackWrite (-1))) := by
  rcases exec_cases (.push reg) s with ⟨c, hc, e⟩ | ⟨r, w, hw, _⟩
  · cases hc with
    | push => omega
    | pushStack =>
      rw [hs] at e
      exact e
  · cases hw with
    | push _ _ h1 => simp [hs] at h1

/-- R83: at 255 the operand of a one-operand instruction is beyond memory. -/
theorem step_oneOperandBeyond (hrun : s.status = .running) (hpc : s.pc = 255)
    (hop : opcodeAt s ∈ [0x47, 0x46, 0x45]) : step s = .next (stopped s (.outOfRange .operandFetch 256)) := by
  have hknown : ([0x47, 0x46, 0x45] : List Byte) ⊆ [0x82, 0x47, 0xA2, 0x46, 0x45] := by decide
  exact step_of_fetchInstr_error hrun (fetchInstr_operandABeyond (congrArg BitVec.toNat hpc) (hknown hop))

/-! ### Instructions one after the other -/

theorem execAll_cons {i : Instr} (is : List Instr) (hrun : s.status = .running) (ht : exec i s = .next t) :
    execAll (i :: is) s = execAll is t := by
  simp [execAll, hrun, ht]

theorem execAll_append (is js : List Instr) (h : execAll is s = some t) : execAll (is ++ js) s = execAll js t := by
  induction is generalizing s with
  | nil =>
    cases h
    rfl
  | cons i is ih =>
    rw [execAll] at h
    split at h
    · next hrun hexec => rw [List.cons_append, execAll_cons _ hrun hexec, ih h]
    · cases h

end

/-! ### Registers saved on the stack -/

/-- The values of the registers stand in consecutive cells of memory from address `a` upward, in the list's order. -/
def SavedFrom (x : RegFile) (m : Memory) : Nat → List Byte → Prop
  | _, [] => True
  | a, r :: rs => x[r.toNat]? = some (m.byteAt a) ∧ SavedFrom x m (a + 1) rs

/-- A write below the saved registers leaves them saved. -/
theorem SavedFrom.setByte_below {x : RegFile} {m : Memory} {a b : Nat} {rs : List Byte} (v : Byte) (hb : b < a)
    (h : SavedFrom x m a rs) : SavedFrom x (m.setByte b v) a rs := by
  induction rs generalizing a with
  | nil => trivial
  | cons r rs ih =>
    obtain ⟨hr, hrs⟩ := h
    exact ⟨by rw [hr, Memory.byteAt_setByte, if_neg hb.ne], ih (Nat.lt_succ_of_lt hb) hrs⟩

section

variable {s : State} {reg : Byte} {rs saved : List Byte}

/-- PUSH saves its register below those saved before. -/
theorem exec_push_saves (hrun : s.status = .running) (hreg : reg.toNat < 8) (h1 : 1 ≤ s.sp.toNat)
    (hs : s.sp.toNat ≤ 256) (hsaved : SavedFrom s.x s.mem s.sp.toNat saved) :
    ∃ t : State, exec (.push reg) s = .next t ∧ t.status = .running ∧ t.x = s.x ∧ t.sp.toNat = s.sp.toNat - 1 ∧
      SavedFrom t.x t.mem t.sp.toNat (reg :: saved) := by
  have hsp : (s.sp - 1).toNat = s.sp.toNat - 1 := toNat_ptr_sub_one h1
  refine ⟨_, exec_push hrun hreg h1 hs, hrun, rfl, hsp, ?_⟩
  rw [hsp, SavedFrom, Memory.byteAt_setByte_self, Nat.sub_add_cancel h1]
  exact ⟨Vector.getElem?_eq_getElem hreg, hsaved.setByte_below _ (by omega)⟩

/-- POP of the register saved at `sp` writes back the value it holds. -/
theorem exec_pop_saved (hrun : s.status = .running) (hreg : reg.toNat < 8) (hs : s.sp.toNat < 256) :
    ∃ t : State, exec (.pop reg) s = .next t ∧ t.status = .running ∧ t.sp.toNat = s.sp.toNat + 1 ∧
      (SavedFrom s.x s.mem s.sp.toNat (reg :: saved) → t.x = s.x ∧ SavedFrom t.x t.mem t.sp.toNat saved) := by
  have hsp : (s.sp + 1).toNat = s.sp.toNat + 1 := toNat_ptr_add_one hs
  refine ⟨_, exec_pop hrun hreg hs, hrun, hsp, fun ⟨htop, hrest⟩ => ?_⟩
  have hx : s.x.set reg.toNat (s.mem.byteAt s.sp.toNat) hreg = s.x := by
    rw [Vector.getElem?_eq_getElem hreg, Option.some.injEq] at htop
    rw [← htop, Vector.set_getElem_self]
  rw [hx, hsp]
  exact ⟨rfl, hrest⟩

/-- PUSHes of `rs` save them, the last one at `sp`, below those saved before. -/
theorem execAll_map_push (hrun : s.status = .running) (hlegal : ∀ r ∈ rs, r.toNat < 8) (hlen : rs.length ≤ s.sp.toNat)
    (hs : s.sp.toNat ≤ 256) (hsaved : SavedFrom s.x s.mem s.sp.toNat saved) :
    ∃ t : State, execAll (rs.map .push) s = some t ∧ t.status = .running ∧ t.x = s.x ∧
      t.sp.toNat = s.sp.toNat - rs.length ∧ SavedFrom t.x t.mem t.sp.toNat (rs.reverse ++ saved) := by
  induction rs generalizing s saved with
  | nil => exact ⟨s, rfl, hrun, rfl, rfl, hsaved⟩
  | cons r rs ih =>
    obtain ⟨hr, hrs⟩ := List.forall_mem_cons.mp hlegal
    rw [List.length_cons] at hlen
    obtain ⟨u, hu, hurun, hux, husp, husaved⟩ := exec_push_saves hrun hr (by omega) hs hsaved
    obtain ⟨t, ht, htrun, htx, htsp, htsaved⟩ := ih hurun hrs (by omega) (by omega) husaved
    refine ⟨t, (execAll_cons _ hrun hu).trans ht, htrun, htx.trans hux, ?_, ?_⟩
    · rw [List.length_cons]
      omega
    · rwa [List.reverse_cons, List.append_assoc]

/-- POPs of `rs` raise `sp` by their number, and change no register where `rs` are the registers saved from `sp` upward. -/
theorem execAll_map_pop (hrun : s.status = .running) (hlegal : ∀ r ∈ rs, r.toNat < 8)
    (hlen : s.sp.toNat + rs.length ≤ 256) :
    ∃ t : State, execAll (rs.map .pop) s = some t ∧ t.status = .running ∧ t.sp.toNat = s.sp.toNat + rs.length ∧
      (SavedFrom s.x s.mem s.sp.toNat rs → t.x = s.x) := by
  induction rs generalizing s with
  | nil => exact ⟨s, rfl, hrun, rfl, fun _ => rfl⟩
  | cons r rs ih =>
    obtain ⟨hr, hrs⟩ := List.forall_mem_cons.mp hlegal
    rw [List.length_cons] at hlen
    obtain ⟨u, hu, hurun, husp, husaved⟩ := exec_pop_saved (saved := rs) hrun hr (by omega)
    obtain ⟨t, ht, htrun, htsp, htx⟩ := ih hurun hrs (by omega)
    refine ⟨t, (execAll_cons _ hrun hu).trans ht, htrun, ?_, fun hsaved => ?_⟩
    · rw [List.length_cons]
      omega
    · obtain ⟨hux, hrest⟩ := husaved hsaved
      exact (htx hrest).trans hux

end

/-! ### The obligations -/

/-- Settles O20: the byte read is staged for the register and committed with the new `sp`; the index check comes before
the stack address's, and the fetch's before both. -/
theorem popReadsTheTopOfStack : Obligations.PopReadsTheTopOfStack := by
  intro s reg hrun
  refine ⟨exec_pop hrun, fun hbad => ?_, exec_pop_stackBeyond, fun hbytes => ?_, fun hpc hop => ?_⟩
  · exact registerIndexIsTheWholeByte (.pop reg) s reg hrun (if_pos hbad)
  · exact step_of_fetches hrun (fetches_of_bytesAtPc_encode hbytes)
  · exact step_oneOperandBeyond hrun hpc (by simp [hop])

/-- Settles O21: the register read is staged for the cell below `sp` and committed with the new `sp`; the index check
comes before the stack address's, and the fetch's before both. -/
theorem pushWritesTheNewTopOfStack : Obligations.PushWritesTheNewTopOfStack := by
  intro s reg hrun
  refine ⟨fun hreg h1 hs => ?_, fun hbad => ?_, exec_push_stackBelow, fun hbytes => ?_, fun hpc hop => ?_⟩
  · exact ⟨_, exec_push hrun hreg h1 hs, rfl, rfl, rfl, rfl, hrun, rfl,
      fun a => Memory.byteAt_setByte_sub_one s.mem _ a h1⟩
  · exact registerIndexIsTheWholeByte (.push reg) s reg hrun (if_pos hbad)
  · exact step_of_fetches hrun (fetches_of_bytesAtPc_encode hbytes)
  · exact step_oneOperandBeyond hrun hpc (by simp [hop])

/-- Settles O35: the POP reads the cell the PUSH wrote, and the moves of `sp` and `pc` add up. -/
theorem pushThenPopCopiesARegister : Obligations.PushThenPopCopiesARegister := by
  intro s r q hr hq hrun h1 hs
  have hsp : (s.sp - 1).toNat = s.sp.toNat - 1 := toNat_ptr_sub_one h1
  refine ⟨_, _, exec_push hrun hr h1 hs, exec_pop ?_ hq ?_, ?_, ?_, fun a => ?_⟩
  · exact hrun
  · dsimp only
    omega
  · dsimp only
    omega
  · have hpc : s.pc + 2 + 2 = s.pc + 4 := BitVec.add_assoc s.pc 2 2
    simp only [hsp, Memory.byteAt_setByte_self, BitVec.sub_add_cancel, hpc]
  · exact Memory.byteAt_setByte_sub_one s.mem _ a h1

/-- Settles O36: the PUSHes save the registers on the stack, in the order in which the reversed list takes them back. -/
theorem pushesThenPopsRestoreTheStack : Obligations.PushesThenPopsRestoreTheStack := by
  intro s pushed popped hrun hpushed hpopped heq hlen hs
  obtain ⟨u, hu, hurun, hux, husp, hsaved⟩ := execAll_map_push (saved := []) hrun hpushed hlen hs trivial
  obtain ⟨t, ht, htrun, htsp, htx⟩ := execAll_map_pop hurun hpopped (by omega)
  refine ⟨t, (execAll_append _ _ hu).trans ht, htrun, BitVec.eq_of_toNat_eq (by omega), fun hrev => ?_⟩
  rw [List.append_nil, ← hrev] at hsaved
  exact (htx hsaved).trans hux

end Sys2Proof.Machine
end

section
/-! SUPPORT. The statements about faults and the host (60_exceptions.md): a fault's record and what it leaves unchanged,
the launch state, and what the host prints, reports and exits with. -/

namespace Sys2Proof.Machine

open Sys2Proof.Stated

section

variable {s t : State} {r : FaultRecord}

/-! ### The host's lines, report and exit status -/

/-- R192: one line a value. -/
theorem outputLines_eq_map (out : List Byte) :
    outputLines out = out.map fun v => { stream := .standardOutput, text := renderValue v } :=
  List.map_map

theorem faultReport_of_ne_unknownOpcode (h : ∀ op : Byte, r.cause ≠ .unknownOpcode op) :
    faultReport r = .record r := by
  obtain ⟨cause, pc⟩ := r
  cases cause with
  | unknownOpcode op => exact absurd rfl (h op)
  | outOfRange | unsupportedOperation => rfl

/-- D20: the OPEN exit status of a fault is a successor. -/
theorem exitCodeFault_ne_zero : Config.exitCodeFault ≠ 0 := Nat.succ_ne_zero _

/-- A run of `k` steps decides the host's run with at least `k` fuel: what is left is the host's run from its end. -/
theorem hostRun_of_run {k fuel : Nat} (hrun : Sys2Proof.core.run k s = .next t) (hk : k ≤ fuel) :
    hostRun fuel s = hostRun (fuel - k) t := by
  rw [← hostRun_add_of_run (fuel - k) hrun, Nat.sub_add_cancel hk]

/-! ### Decimal digits -/

theorem decimalValue_toDigits (n : Nat) : decimalValue (Nat.toDigits 10 n) = n :=
  Nat.ofDigitChars_eq_foldl.symm.trans Nat.ofDigitChars_ten_toDigits

/-- The leading digit of a number is that of its quotient by 10, down to a number below 10, which is its own digit. -/
theorem head?_toDigits_ne_zero {n : Nat} (h : 0 < n) : (Nat.toDigits 10 n).head? ≠ some '0' := by
  rcases Nat.lt_or_ge n 10 with hlt | hge
  · rw [Nat.toDigits_of_lt_base hlt, List.head?_cons, ne_eq, Option.some.injEq, Nat.digitChar_eq_zero]
    omega
  · rw [Nat.toDigits_of_base_le (by decide) hge, List.head?_append_of_ne_nil _ Nat.toDigits_ne_nil]
    exact head?_toDigits_ne_zero (Nat.div_pos hge (by decide))
termination_by n

end

/-! ### The obligations -/

/-- Settles O11: the fetch's second check fails. -/
theorem unknownOpcodeFaults : Obligations.UnknownOpcodeFaults := fun _ => step_unknownOpcode

/-- Settles O25: only fault entry leads to Faulted, for a commit leaves the machine Running or Halted. -/
theorem faultsArePreciseAndAtomic : Obligations.FaultsArePreciseAndAtomic := by
  intro s t r ht hr
  obtain ⟨_, ⟨c, _, rfl⟩ | ⟨i, c, _, _, rfl⟩ | ⟨i, r', w, _, _, rfl⟩⟩ := step_cases s t ht
  · cases hr
    exact ⟨rfl, rfl⟩
  · cases hr
    exact ⟨rfl, rfl⟩
  · cases (commit_not_hasFaulted s r' w).symm.trans (hasFaulted_of_status hr)

/-- Settles O29: the host's writes keep memory canonical, and the other fields are the construction state's. -/
theorem launchMeetsInvariant : Obligations.LaunchMeetsInvariant := by
  intro values
  have hpc : State.reset.pc.toNat ≤ 256 := by decide
  have hsp : State.reset.sp.toNat ≤ 256 := by decide
  exact ⟨Memory.wf_setBytes [] 0 _ Memory.wf_nil, hpc, hsp, rfl⟩

/-- Settles O43: the host's run goes on from `t`, which is handed over unless it is Running. -/
theorem runIsHandedOverAtItsEnd : Obligations.RunIsHandedOverAtItsEnd := by
  intro k s t hrun
  refine ⟨fun ht => ?_, fun fuel ht hk => ?_⟩
  · rw [hostRun_of_run hrun le_rfl, Nat.sub_self]
    exact runEnd_running t ht
  · rw [hostRun_of_run hrun hk, hostRun_ended _ t ht]
    cases hst : t.status with
    | running => exact absurd hst ht
    | halted => exact ⟨_, runEnd_halted t hst, rfl, outputLines_eq_map t.out, by simp⟩
    | faulted r =>
      refine ⟨_, runEnd_faulted t r hst, rfl, outputLines_eq_map t.out, nofun, fun op pc h => ?_, fun r' h hne => ?_,
        fun _ _ => exitCodeFault_ne_zero⟩
      · cases h
        rfl
      · cases h
        exact congrArg some (faultReport_of_ne_unknownOpcode hne)

/-- Settles O40: by the number of arguments. -/
theorem hostRefusesABadInvocation : Obligations.HostRefusesABadInvocation := by
  refine ⟨fun args hlen => ?_, rfl⟩
  match args with
  | [] => rfl
  | [_] => exact absurd rfl hlen
  | none :: _ :: _ | some _ :: _ :: _ => rfl

/-- Settles O41: a value's line is its number's digits to the base 10. -/
theorem outputIsRenderedInDecimal : Obligations.OutputIsRenderedInDecimal := by
  refine ⟨rfl, fun out v => List.map_append, fun v => ⟨?_, decimalValue_toDigits v.toNat, ?_⟩⟩
  · exact List.all_eq_true.mpr fun c hc => Nat.isDigit_of_mem_toDigits (by decide) (by decide) hc
  · split
    next h0 => rw [h0]; rfl
    next h0 => exact head?_toDigits_ne_zero (Nat.pos_of_ne_zero fun h => h0 (BitVec.eq_of_toNat_eq h))

/-- Settles O42: the status decides, whatever the OPEN exit status is. -/
theorem exitStatusOfARun : Obligations.ExitStatusOfARun := ⟨rfl, rfl, fun _ => ⟨_, rfl, exitCodeFault_ne_zero⟩⟩

end Sys2Proof.Machine
end

section
/-! SUPPORT. The statements about construction (70_reset_and_hazards.md R200): what every field holds, and that the
invariant holds before the first step. -/

namespace Sys2Proof.Machine

theorem getElem_reset_x (i : Fin 8) : State.reset.x[i] = 0 := Vector.getElem_replicate i.isLt

/-- The construction state is the launch state of an empty image. -/
theorem launch_nil : State.launch [] = State.reset := rfl

/-! ### The obligations -/

/-- Settles O1: the empty list of cells reads as the fill value everywhere, and the register file is one value replicated;
every other field is its literal of the table in `Config`. -/
theorem constructionState : Obligations.ConstructionState :=
  ⟨fun a _ => Memory.byteAt_nil a, getElem_reset_x, rfl, rfl, rfl, rfl, rfl⟩

/-- Settles O28: every launch state meets the invariant, and this is the one the host loads nothing into. -/
theorem constructionMeetsInvariant : Obligations.ConstructionMeetsInvariant := by
  rw [Obligations.ConstructionMeetsInvariant, ← launch_nil]
  exact launchMeetsInvariant []

end Sys2Proof.Machine
end

section
/-! SUPPORT. The statements about how a step ends (40_fetch_decode_dispatch.md R87 to R89; 41_control_io.md R110): how far
`pc` moves, and that HALT alone ends Running. -/

namespace Sys2Proof.Machine

open Sys2Proof.Stated

section

variable {s : State} {i : Instr} {r : HandlerResult} {w : Writes}

/-- R87, R89: the commit's status, by the instruction's opcode. -/
theorem Stages.status_commit (h : Stages s i r w) :
    (commit s r w).status = if i.opcode = 0x01 then .halted else .running := by
  cases h with
  | halt | loadImmediate | printRegister | multiply | pop | push => rfl

/-- R110: the whole next state of HALT, which raises nothing and stages no write. -/
theorem exec_halt (s : State) : exec .halt s = .next { s with pc := s.pc + 1, status := .halted } := by
  rcases exec_cases .halt s with ⟨c, hc, _⟩ | ⟨r, w, hw, e⟩
  · cases hc
  · cases hw
    simp [e, commit, programCounterAdvance, flagsAfter]

end

/-! ### The obligations -/

/-- Settles O14: a step that does not fault is a commit, which moves `pc` by the length of the instruction fetched. The
sub-block of R88 has the obligation's own name. -/
theorem programCounterAdvance_of_step : Obligations.ProgramCounterAdvance := by
  intro s t _ ht hok
  obtain ⟨_, ⟨c, _, rfl⟩ | ⟨i, c, _, _, rfl⟩ | ⟨i, r, w, hf, hw, rfl⟩⟩ := step_cases s t ht
  · cases hok
  · cases hok
  · have hpc := toNat_commit_pc hf hw
    rw [opcodeAt, opcode_of_fetches s i hf, Nat.add_assoc, operandCountOf_opcode i]
    exact ⟨hpc, hpc.trans_le hf.1, hw.status_commit⟩

/-- Settles O16: HALT's commit, and its fetch from its one byte. -/
theorem haltStopsTheRun : Obligations.HaltStopsTheRun :=
  fun s hrun => ⟨exec_halt s, fun hbytes => step_of_fetches hrun (fetches_of_bytesAtPc_encode hbytes)⟩

end Sys2Proof.Machine
end
